-- ==== Sys2Proof/Word.lean ====
section
/-! DEFINITION. The values of 00_scope.md R6: bytes, 6-bit symbol values, command words, and the
half-open slice of a buffer. A buffer is a finite list of bytes indexed from 0 (R6, R38). -/

namespace Sys2Proof

/-- A byte: 8 bits, unsigned (R6). -/
abbrev Byte := BitVec 8

/-- A symbol value: a 6-bit value 0..63 (R6). -/
abbrev Sym := BitVec 6

/-- A command word `cmd`: 32 bits (R25, R48). -/
abbrev CmdWord := BitVec 32

/-- `B[i..j]`: bytes i up to but not including j (R6, half-open; 90_conflicts.md C4). -/
def slice {α : Type} (b : List α) (i j : Nat) : List α := (b.drop i).take (j - i)

end Sys2Proof
end

