-- ==== Sys2Proof/Config.lean ====
section
/-! DEFINITION. What an implementation fixes: the parameters of 00_scope.md R5. The values marked OPEN
are constants without a body, so no proof can rest on one of their values. -/

namespace Sys2Proof

/-- The two kinds of a failed decode; nothing else is reported (R88). -/
inductive DecodeError where
  | invalidCharacter
  | length
deriving DecidableEq, Repr

/-- The five kinds of a failed parse (R54, R94). `header` is the spec's PARSE_PREFIX (bytes 0..4). -/
inductive ParseError where
  | length
  | header
  | workFactor
  | salt
  | hash
deriving DecidableEq, Repr

/-- `P_SEP_POLICY`: what PARSE does with byte 6 of the text (R5, R96). -/
inductive SepPolicy where
  | ignore
  | reject (k : ParseError)
deriving DecidableEq, Repr

/-- `P_DECODE_ERR_ORDER`: which decode error is reported when both apply (R5, R77, R78). -/
inductive DecodeErrOrder where
  | streamOrder
  | lengthFirst
deriving DecidableEq, Repr

/-- The parameters of R5 that a rule reads, as one argument of the record operations. -/
structure Params where
  wfSupported : Nat → Bool
  sepPolicy : SepPolicy
  decodeErrOrder : DecodeErrOrder

/-- An instantiation of `P_WF_SUPPORTED` that the spec admits: it holds at 4 and not above 99 (R91). -/
def Params.Admissible (p : Params) : Prop :=
  p.wfSupported 4 = true ∧ ∀ w, 99 < w → p.wfSupported w = false

namespace Config

/-- `LEN_W`: the width of the two length fields (R5, D15). -/
def lenW : Nat := 12

/-- `MAX_LEN = 4095` (R5, D15). -/
def maxLen : Nat := 2 ^ lenW - 1

/-- FREE VALUE (assumption 3): which work factors other than 4 the hardware supports; the spec leaves
it OPEN (R5, R91, D11). -/
opaque freeWorkFactor : Nat → Bool

/-- `P_WF_SUPPORTED` of this hardware: 4 is supported, nothing above 99 is, the rest is free (R91). -/
def wfSupported (w : Nat) : Bool := decide (w ≤ 99) && (w == 4 || freeWorkFactor w)

/-- `LATENCY` (R5, R135, D17): OPEN, it may depend on the command and on n, both of which `cmd` holds; no
rule and no definition reads it. DESIGN CHOICE (assumption 11): it may depend on the data in `din` as well,
since R136 leaves that open and forbids a model to assume constant-time behaviour. -/
opaque latency (cmd : CmdWord) (din : List Byte) : Nat

/-- `N_INSTANCES` (R5, R31, D21): OPEN. -/
opaque nInstances : Nat

/-- The values this spec takes for the hardware: `Ignore` (D13) and `StreamOrder` (D14). -/
def params : Params where
  wfSupported := wfSupported
  sepPolicy := .ignore
  decodeErrOrder := .streamOrder

end Config

end Sys2Proof
end

