-- ==== Sys2Proof/Syntax.lean ====
section
/-! DEFINITION. The six commands of 30_encoding.md R49 as one inductive type, and the assembler lines of
R68 and R69. Lengths are naturals (R6); WellFormed.lean says which of them the word can hold. -/

namespace Sys2Proof

/-- One constructor per row of spec/opcode_table.json (R49). -/
inductive Instr where
  /-- ENC6 (R70). -/
  | enc6
  /-- DEC8 (R71). -/
  | dec8
  /-- ENCODE n, m (R80): n = LEN_IN raw bytes, m = LEN_OUT. -/
  | encode (n m : Nat)
  /-- DECODE n, m (R81): n = LEN_IN characters, m = LEN_OUT. -/
  | decode (n m : Nat)
  /-- FORMAT (R93). -/
  | format
  /-- PARSE n (R94): n = LEN_IN, the text length. -/
  | parse (n : Nat)
deriving DecidableEq, Repr

/-- The data operands of a line (R68): hex bytes, or a quoted ASCII string. -/
inductive AsmData where
  | hex (din : List Byte)
  | quoted (text : String)
deriving DecidableEq, Repr

/-- One assembler line (R68) or pseudo-instruction (R69), without its data operands. -/
inductive AsmLine where
  | instr (i : Instr)
  /-- `.word w`: the raw word, legal or not. -/
  | word (w : CmdWord)
  | encodeFit (n : Nat)
  | decodeFit (n : Nat)
  | encSalt
  | encDigest
  | decSalt
  | decDigest
  | parse60
deriving DecidableEq, Repr

end Sys2Proof
end

