-- ==== Sys2Proof/WellFormed.lean ====
section
/-! DEFINITION. Which commands a command word can hold: every length is 0..4095 (30_encoding.md R48, R51;
`LEN_W` of R5). A length that does not fit the operation (a wrong `m`) is no encoding error: R51. -/

namespace Sys2Proof

/-- The lengths of the command fit the 12-bit fields LEN_IN and LEN_OUT (R48). -/
def Instr.wellFormed : Instr → Bool
  | .enc6 => true
  | .dec8 => true
  | .encode n m => decide (n ≤ Config.maxLen) && decide (m ≤ Config.maxLen)
  | .decode n m => decide (n ≤ Config.maxLen) && decide (m ≤ Config.maxLen)
  | .format => true
  | .parse n => decide (n ≤ Config.maxLen)

end Sys2Proof
end

