-- ==== Sys2Proof/Decode.lean ====
section
/-! DEFINITION. The decoder `decode_cmd` of 30_encoding.md R67, total on every 32-bit word and rejecting by
name; the encoder written from the tables R48 and R68; the assembler lines of R68 and R69. -/

namespace Sys2Proof

/-- Why a word is no command (R66). All of them are the spec's one `Illegal` (R67). -/
inductive Illegal where
  /-- `OP` is 0x0 or 0x7..0xF. -/
  | reservedOp
  /-- `RSV` is not 0 (R50). -/
  | reservedBits
  /-- A length field that the operation does not use is not 0 (R51). -/
  | unusedLength
deriving DecidableEq, Repr

/-- `OP = cmd[3:0]` (R48). -/
def opField (w : CmdWord) : Nat := (w.extractLsb' 0 4).toNat

/-- `RSV = cmd[7:4]` (R48). -/
def rsvField (w : CmdWord) : Nat := (w.extractLsb' 4 4).toNat

/-- `LEN_IN = cmd[19:8]`, unsigned and not scaled (R48). -/
def lenInField (w : CmdWord) : Nat := (w.extractLsb' 8 12).toNat

/-- `LEN_OUT = cmd[31:20]`, unsigned and not scaled (R48). -/
def lenOutField (w : CmdWord) : Nat := (w.extractLsb' 20 12).toNat

/-- The operation with the given `OP`, by the case table of R67. -/
def decodeOp (op n m : Nat) : Except Illegal Instr :=
  match op with
  | 1 => if n = 0 ∧ m = 0 then .ok .enc6 else .error .unusedLength
  | 2 => if n = 0 ∧ m = 0 then .ok .dec8 else .error .unusedLength
  | 3 => .ok (.encode n m)
  | 4 => .ok (.decode n m)
  | 5 => if n = 0 ∧ m = 0 then .ok .format else .error .unusedLength
  | 6 => if m = 0 then .ok (.parse n) else .error .unusedLength
  | _ => .error .reservedOp

/-- `decode_cmd(w)` (R67). -/
def decodeCmd (w : CmdWord) : Except Illegal Instr :=
  if rsvField w ≠ 0 then .error .reservedBits
  else decodeOp (opField w) (lenInField w) (lenOutField w)

/-- The instruction read from bits numbered as spec/opcode_table.json numbers them: one 32-bit word,
bit 0 least significant; bits above `nbits` are 0. -/
def decodeTableWord (nbits w : Nat) : Option Instr :=
  match decodeCmd (BitVec.ofNat 32 (w % 2 ^ nbits)) with
  | .ok i => some i
  | .error _ => none

/-- The word with fields OP, LEN_IN and LEN_OUT and RSV = 0: `(m << 20) | (n << 8) | OP` (R48, R68).
A length beyond 12 bits does not fit its field (`Instr.wellFormed`). -/
def packWord (op : BitVec 4) (n m : Nat) : CmdWord :=
  BitVec.ofNat 12 m ++ BitVec.ofNat 12 n ++ 0#4 ++ op

/-- The word of a command (R49, R68). -/
def encodeCmd : Instr → CmdWord
  | .enc6 => packWord 1#4 0 0
  | .dec8 => packWord 2#4 0 0
  | .encode n m => packWord 3#4 n m
  | .decode n m => packWord 4#4 n m
  | .format => packWord 5#4 0 0
  | .parse n => packWord 6#4 n 0

/-! ### The assembler (R68, R69) -/

/-- What an assembler line stands for: a command, or the raw word of `.word`; none if it does not
assemble (R69: `ENCODE.FIT n` only for n ≤ 3071). -/
def AsmLine.expand : AsmLine → Option (Instr ⊕ CmdWord)
  | .instr i => if i.wellFormed then some (.inl i) else none
  | .word w => some (.inr w)
  | .encodeFit n => if n ≤ 3071 then some (.inl (.encode n ((4 * n + 2) / 3))) else none
  | .decodeFit n => if n ≤ Config.maxLen then some (.inl (.decode n (3 * n / 4))) else none
  | .encSalt => some (.inl (.encode 16 22))
  | .encDigest => some (.inl (.encode 23 31))
  | .decSalt => some (.inl (.decode 22 16))
  | .decDigest => some (.inl (.decode 31 23))
  | .parse60 => some (.inl (.parse 60))

/-- The command word an assembler line gives (R68, R69). -/
def AsmLine.assemble (l : AsmLine) : Option CmdWord :=
  match l.expand with
  | some (.inl i) => some (encodeCmd i)
  | some (.inr w) => some w
  | none => none

/-- One hexadecimal digit, upper case. -/
def hexDigit (n : Nat) : Char :=
  if n < 10 then Char.ofNat (0x30 + n) else Char.ofNat (0x37 + n)

/-- The low `k` hexadecimal digits of a number, most significant first. -/
def hexDigits : Nat → Nat → List Char
  | 0, _ => []
  | k + 1, n => hexDigit (n / 16 ^ k % 16) :: hexDigits k n

/-- The byte of a quoted character: its ASCII code (R6, R57). DESIGN CHOICE (assumption 21): a character outside
ASCII stands for no byte; R68 speaks only of a quoted ASCII string. -/
def asciiByte (c : Char) : Option Byte :=
  if c.toNat < 0x80 then some (BitVec.ofNat 8 c.toNat) else none

/-- The input buffer that data operands stand for (R68); none where a quoted character is outside ASCII
(DESIGN CHOICE, assumption 21). -/
def AsmData.bytes : AsmData → Option (List Byte)
  | .hex din => some din
  | .quoted text => text.toList.mapM asciiByte

/-- The data operands as written, `[00 10 83]` or a string between double quotes (R68). -/
def AsmData.text : AsmData → String
  | .hex din => "[" ++ " ".intercalate (din.map fun b => String.ofList (hexDigits 2 b.toNat)) ++ "]"
  | .quoted text => (String.singleton (Char.ofNat 0x22)) ++ text ++ (String.singleton (Char.ofNat 0x22))

/-- The line's text before its data operands (R68, R69); lengths in decimal. -/
def AsmLine.text : AsmLine → String
  | .instr .enc6 => "ENC6"
  | .instr .dec8 => "DEC8"
  | .instr (.encode n m) => "ENCODE " ++ toString n ++ ", " ++ toString m
  | .instr (.decode n m) => "DECODE " ++ toString n ++ ", " ++ toString m
  | .instr .format => "FORMAT"
  | .instr (.parse n) => "PARSE " ++ toString n
  | .word w => ".word 0x" ++ String.ofList (hexDigits 8 w.toNat)
  | .encodeFit n => "ENCODE.FIT " ++ toString n
  | .decodeFit n => "DECODE.FIT " ++ toString n
  | .encSalt => "ENCSALT"
  | .encDigest => "ENCDIGEST"
  | .decSalt => "DECSALT"
  | .decDigest => "DECDIGEST"
  | .parse60 => "PARSE60"

/-- A whole line with its data operands after `;` (R68). -/
def AsmLine.lineText (l : AsmLine) (d : AsmData) : String :=
  l.text ++ " ; din = " ++ d.text

end Sys2Proof
end

