-- ==== Sys2Proof/Machine/State.lean ====
section
/-! DEFINITION. The state of one instance (10_state.md R20 to R32) with the signals of its interface (R25),
and what the host does next. The constants `ALPHA` and `REV` (R17, R18) are Machine/Rom.lean's. -/

namespace Sys2Proof.Machine

/-- An output buffer as cells `(index, byte)` with strictly rising indices (`Memory.wf`). An index that
is not listed is POISON: the rules fix no value there (R7, R36, R37), so it reads as no value. -/
abbrev Memory := List Host.Cell

/-- The error kinds a transaction can return (R54, R108). -/
inductive ErrorKind where
  | dec (e : DecodeError)
  | parse (e : ParseError)
deriving DecidableEq, Repr

/-- The causes of a fault (R55, R109). -/
inductive Cause where
  | illegalCommand
  | bufferSize
  | operandRange
deriving DecidableEq, Repr

/-- Which outcome the last transaction since reset returned (R8, R26). -/
inductive Answer where
  /-- No transaction has completed since reset (R128). -/
  | noneYet
  | success
  | error (k : ErrorKind)
  | fault (c : Cause)
  /-- The block was already faulted and took no command (R111). -/
  | refused
deriving DecidableEq, Repr

/-- A transaction as the host presents it: the command word and the input buffer (R26). -/
structure Transaction where
  cmd : CmdWord
  din : List Byte
deriving DecidableEq, Repr

/-- An output the host can read (R25, R29). -/
inductive OutPort where
  | status
  | valid
  | dout (i : Nat)
  | fault
  | fcause
deriving DecidableEq, Repr

/-- What a read of an output port returned. -/
inductive Reading where
  | status (v : BitVec 4)
  | valid (b : Bool)
  | dout (b : Byte)
  | fault (b : Bool)
  | fcause (c : BitVec 3)
deriving DecidableEq, Repr

/-- One thing the host does (the table of R29). -/
inductive HostAction where
  /-- Present `cmd` and `din` together as one transaction (R25, R26). -/
  | issue (t : Transaction)
  /-- Assert `rst` and release it (R125); `presented` is a command presented meanwhile, if any (R127). -/
  | reset (presented : Option Transaction)
  /-- Read an output (R22, R29). -/
  | read (p : OutPort)
deriving DecidableEq, Repr

/-- Why the MODEL stops. A fault of the block itself is no stop: it is a next state (`raiseFault`, R110). -/
inductive Fault where
  /-- Raised by `memRead` for an index of DIN at or above `L_in(cmd)` (R34). Safe: no command reads there. -/
  | dinRead (i : Nat)
  /-- Raised by `memWrite` for an index of DOUT at or above `L_out(cmd)` (R35). Safe: no command writes there. -/
  | doutWrite (i : Nat)
  /-- Raised by `hostRead` for a byte of DOUT that does not exist (R33). Safe: the host reads nothing there. -/
  | doutRead (i : Nat)
  /-- Raised by `hostRead` for an output that is POISON (R37, R128, R130). Safe: the rules fix no value. -/
  | poisonRead (p : OutPort)
deriving DecidableEq, Repr

/-- Why the model gives a step no meaning. A command refused because FAULT = 1 is no such stop: it is a
next state (`refuseCommand`, R111). -/
inductive Refusal where
  /-- Raised by exec's arm of an instruction that has no meaning yet. Safe. -/
  | notModelled (mnemonic : String)
  /-- Raised by `takeCommand` when the host presents `got` input bytes and not `L_in(cmd)` of them: "no
  other length can be presented" (R27, assumption 4). Safe: such a transaction does not exist. -/
  | dinLength (expected got : Nat)
deriving DecidableEq, Repr

/-- The state of one instance of the block with its interface. -/
structure State where
  /-- `FAULT` (R20): 1-bit register. -/
  fault : Bool
  /-- `FCAUSE` (R21): 3-bit register. -/
  fcause : BitVec 3
  /-- `din`, the address space DIN: the input buffer of the transaction in progress (R25, R33). Every byte
  of it is defined; between transactions it does not exist, and is empty here. -/
  din : List Byte
  /-- The outcome of the last transaction; the output `status` is computed from it (R25, R26). -/
  answer : Answer
  /-- The output `valid` (R25); none is POISON. -/
  valid : Option Bool
  /-- `L_out(cmd)` of the transaction whose outputs stand (R27). -/
  doutLen : Nat
  /-- `dout`, the address space DOUT: its defined bytes (R25, R33). -/
  dout : Memory
  /-- MODEL's own: what the host does next, oldest first (R29, R43; assumption 1). -/
  host : List HostAction
  /-- MODEL's own: what the host's latest read returned (R22, R29; assumption 2). -/
  seen : Option Reading
deriving DecidableEq, Repr

/-- The machine right after reset (R126): FAULT = 0, FCAUSE = 0, no transaction in progress, and the
outputs `status`, `valid` and `dout` POISON (R128). -/
def State.reset : State where
  fault := false
  fcause := 0
  din := []
  answer := .noneYet
  valid := none
  doutLen := 0
  dout := []
  host := []
  seen := none

end Sys2Proof.Machine
end

