-- ==== Sys2Proof/Machine/Flags.lean ====
section
/-! DEFINITION. The codes a transaction returns: the 4-bit `status` (30_encoding.md R54), the 3-bit cause of
FCAUSE (R55). The block keeps no flag or condition code from one transaction to the next (R23). -/

namespace Sys2Proof.Machine

/-- The status code of an error kind (R54). -/
def ErrorKind.code : ErrorKind → BitVec 4
  | .dec .invalidCharacter => 0x1
  | .dec .length => 0x2
  | .parse .length => 0x3
  | .parse .header => 0x4
  | .parse .workFactor => 0x5
  | .parse .salt => 0x6
  | .parse .hash => 0x7

/-- The status code `OK` (R54). -/
def statusOk : BitVec 4 := 0x0

/-- The cause code written to FCAUSE (R55, R109). -/
def Cause.code : Cause → BitVec 3
  | .illegalCommand => 1
  | .bufferSize => 2
  | .operandRange => 3

/-- The output `status` (R25): `OK` after Success, the code of k after Error(k), and no value before the
first transaction (R128) and after a fault or a refusal, which return no status (R110, R111; assumption 5). -/
def State.status (s : State) : Option (BitVec 4) :=
  match s.answer with
  | .noneYet => none
  | .success => some statusOk
  | .error k => some k.code
  | .fault _ => none
  | .refused => none

end Sys2Proof.Machine
end

