-- ==== Sys2Proof/Machine/Operands.lean ====
section
/-! DEFINITION. The operands of the six commands: the lengths of their buffers (10_state.md R27), the record
(42_record.md R89), and the work-factor field (R90, R92). The layouts are those of 30_encoding.md R52, R53
and R63. -/

namespace Sys2Proof.Machine

/-- `L_in(cmd)` (R27). -/
def lIn : Instr → Nat
  | .enc6 => 1
  | .dec8 => 1
  | .encode n _ => n
  | .decode n _ => n
  | .format => 40
  | .parse n => n

/-- `L_out(cmd)` (R27). -/
def lOut : Instr → Nat
  | .enc6 => 1
  | .dec8 => 1
  | .encode _ m => m
  | .decode _ m => m
  | .format => 60
  | .parse _ => 40

/-- `ceil(4n/3)`, the characters of n raw bytes (R6, R62, R79). -/
def encLen (n : Nat) : Nat := (4 * n + 2) / 3

/-- `floor(3n/4)`, the raw bytes of n characters (R6, R62, R79). -/
def decLen (n : Nat) : Nat := 3 * n / 4

/-- A record {work factor, salt, digest} (R89). -/
structure Record where
  wf : Byte
  salt : List Byte
  digest : List Byte
deriving DecidableEq, Repr

/-- The sizes of R89: a salt of 16 bytes and a digest of 23 bytes. -/
abbrev Record.Sized (r : Record) : Prop := r.salt.length = 16 ∧ r.digest.length = 23

/-- A record as 40 bytes: `[wf] ++ salt ++ digest` (R52, R53, R89). -/
def recordBytes (r : Record) : List Byte := r.wf :: (r.salt ++ r.digest)

/-- The contract check of FORMAT (R93): wf ≤ 99 and `P_WF_SUPPORTED(wf)`. -/
def wfLegal (p : Params) (wf : Byte) : Bool := decide (wf.toNat ≤ 99) && p.wfSupported wf.toNat

/-- `wf_text(wf)`: two decimal digits, with a leading zero below 10 (R65, R90). -/
def wfText (wf : Byte) : List Byte :=
  [BitVec.ofNat 8 (0x30 + wf.toNat / 10), BitVec.ofNat 8 (0x30 + wf.toNat % 10)]

/-- A byte is a decimal digit `'0'..'9'` (R57, R92). -/
def isDigit (d : Byte) : Bool := decide (0x30 ≤ d.toNat) && decide (d.toNat ≤ 0x39)

/-- `parse_wf(d0, d1)` (R92): none where the spec's function answers Err. -/
def parseWf (p : Params) (d0 d1 : Byte) : Option Byte :=
  if isDigit d0 && isDigit d1 then
    let w := 10 * (d0.toNat - 0x30) + (d1.toNat - 0x30)
    if p.wfSupported w then some (BitVec.ofNat 8 w) else none
  else none

/-- The byte `'$'` (R57). -/
def dollar : Byte := 0x24

/-- `$2b$`, the first four bytes of every text FORMAT writes (R64). -/
def header2b : List Byte := [0x24, 0x32, 0x62, 0x24]

/-- The first four bytes that PARSE accepts: `$2a$`, `$2b$`, `$2y$` (R64, R95). -/
def acceptedHeaders : List (List Byte) :=
  [[0x24, 0x32, 0x61, 0x24], header2b, [0x24, 0x32, 0x79, 0x24]]

end Sys2Proof.Machine
end

