-- ==== Sys2Proof/Machine/Ops.lean ====
section
/-! DEFINITION. The named operations over the buffers and the registers: `MemRead` and `MemWrite`
(20_memory.md R34, R35), how a transaction starts and ends (R26, R28, R36, R37), fault entry (60_exceptions.md
R110), refusal (R111), and the host's reads (10_state.md R22, R29). -/

namespace Sys2Proof.Machine

/-! ### DOUT as cells -/

/-- The canonical form: indices strictly rising. No entry stands for POISON, so none is redundant. -/
def Memory.wf : Memory → Bool
  | [] => true
  | (_, _) :: [] => true
  | (a, _) :: (b, y) :: rest => decide (a < b) && Memory.wf ((b, y) :: rest)

/-- The byte at an index; none where nothing was written (POISON, R36, R37). -/
def Memory.read : Memory → Nat → Option Byte
  | [], _ => none
  | (a, x) :: rest, i => if i = a then some x else Memory.read rest i

/-- Set the byte at an index; a later write replaces an earlier one (R35). -/
def Memory.write : Memory → Nat → Byte → Memory
  | [], i, v => [(i, v)]
  | (a, x) :: rest, i, v =>
    if i < a then (i, v) :: (a, x) :: rest
    else if i = a then (a, v) :: rest
    else (a, x) :: Memory.write rest i v

/-- The buffer that holds the bytes `l` at `k`, `k + 1`, …. -/
def Memory.ofBytesFrom : Nat → List Byte → Memory
  | _, [] => []
  | k, b :: l => (k, b) :: Memory.ofBytesFrom (k + 1) l

/-- The buffer that holds the bytes `l` from index 0. -/
def Memory.ofBytes (l : List Byte) : Memory := Memory.ofBytesFrom 0 l

/-! ### MemRead and MemWrite -/

/-- `MemRead(DIN + i, 1)` (R34). -/
def memRead (s : State) (i : Nat) : Except Fault Byte :=
  match s.din[i]? with
  | some b => .ok b
  | none => .error (.dinRead i)

/-- `[MemRead(DIN + k + j, 1) for j in 0..len-1]`. -/
def memReadRange (s : State) : Nat → Nat → Except Fault (List Byte)
  | _, 0 => .ok []
  | k, len + 1 => do
    let b ← memRead s k
    let bs ← memReadRange s (k + 1) len
    return b :: bs

/-- `MemWrite(DOUT + i, 1, v)` (R35). -/
def memWrite (s : State) (i : Nat) (v : Byte) : Except Fault State :=
  if i < s.doutLen then .ok { s with dout := s.dout.write i v } else .error (.doutWrite i)

/-- `for j in 0..|T|-1 : MemWrite(DOUT + k + j, 1, T[j])`. -/
def memWriteFrom (s : State) : Nat → List Byte → Except Fault State
  | _, [] => .ok s
  | k, b :: rest => do
    let s ← memWrite s k b
    memWriteFrom s (k + 1) rest

/-! ### The life of a transaction -/

/-- The host's input buffer becomes DIN (R33). -/
def State.present (s : State) (din : List Byte) : State := { s with din := din }

/-- The next host action is taken off the list. -/
def State.popHost (s : State) (rest : List HostAction) : State := { s with host := rest }

/-- A transaction starts: DOUT has `L_out(cmd)` bytes, all POISON (R27, R36). -/
def State.openDout (s : State) (len : Nat) : State := { s with doutLen := len, dout := [], valid := none }

/-- `return OK` (R7): Success with the bytes written; DIN ends with the transaction (R33). `valid` is
POISON but for DEC8 (R25). -/
def State.succeed (s : State) (valid : Option Bool) : State :=
  { s with answer := .success, valid := valid, din := [] }

/-- `return Error(k)` (R7): every byte of DOUT is POISON whatever was written (R37); FAULT and FCAUSE keep
their values (R105). `valid` is POISON but for DEC8 (R28). -/
def State.fail (s : State) (k : ErrorKind) (valid : Option Bool) : State :=
  { s with answer := .error k, valid := valid, dout := [], din := [] }

/-- FAULT ENTRY, `raise Fault(cause)` (R110): FAULT and FCAUSE are written and nothing else. The
transaction returns no status, no valid and no dout, so no output stands afterwards (R28; assumption 5). -/
def State.raiseFault (s : State) (c : Cause) : State :=
  { s with fault := true, fcause := c.code, answer := .fault c, valid := none, doutLen := 0, dout := [], din := [] }

/-- A command is refused (R111): no register changes, and no output is produced (R28; assumption 5). -/
def State.refuseCommand (s : State) : State :=
  { s with answer := .refused, valid := none, doutLen := 0, dout := [], din := [] }

/-- A computation that may stop the model, as an outcome of a step. -/
def toOutcome : Except Fault State → Host.Outcome State Fault Refusal
  | .ok s => .next s
  | .error f => .fault f

/-- What every command does before its own rule (R113): refused while FAULT = 1; then DIN must have
`L_in(cmd)` bytes (R27); then DOUT comes into being (R36) and the command runs. -/
def takeCommand (i : Instr) (s : State) (run : State → Except Fault State) : Host.Outcome State Fault Refusal :=
  if s.fault then .next s.refuseCommand
  else if s.din.length = lIn i then toOutcome (run (s.openDout (lOut i)))
  else .refused (.dinLength (lIn i) s.din.length)

/-! ### The host's side -/

/-- A host's read of an output (R22, R29): the registers at any time; a POISON output faults the model. -/
def hostRead (s : State) : OutPort → Except Fault Reading
  | .fault => .ok (.fault s.fault)
  | .fcause => .ok (.fcause s.fcause)
  | .status =>
    match s.status with
    | some v => .ok (.status v)
    | none => .error (.poisonRead .status)
  | .valid =>
    match s.valid with
    | some b => .ok (.valid b)
    | none => .error (.poisonRead .valid)
  | .dout i =>
    if i < s.doutLen then
      match s.dout.read i with
      | some b => .ok (.dout b)
      | none => .error (.poisonRead (.dout i))
    else .error (.doutRead i)

/-- The value read is delivered to the host; nothing in the block changes. -/
def State.deliver (s : State) (r : Reading) : State := { s with seen := some r }

/-- Reset (R125 to R127): every piece of mutable state is at its reset value and the transaction in progress
is discarded. What the host does next and what it has read are the host's. -/
def resetBlock (s : State) : State := { State.reset with host := s.host, seen := s.seen }

end Sys2Proof.Machine
end

