-- ==== Sys2Proof/Machine/Rom.lean ====
section
/-! DEFINITION. The two constant memories (10_state.md R17 to R19): `ALPHA`, written out from the table of
30_encoding.md R56 with the ASCII codes of R57, and `REV`, defined by the equation of R18 alone. -/

namespace Sys2Proof.Machine

/-- Values 0..15: `./ABCDEFGHIJKLMN`. -/
def alphaRow0 : List Byte :=
  [0x2E, 0x2F, 0x41, 0x42, 0x43, 0x44, 0x45, 0x46, 0x47, 0x48, 0x49, 0x4A, 0x4B, 0x4C, 0x4D, 0x4E]

/-- Values 16..31: `OPQRSTUVWXYZabcd`. -/
def alphaRow1 : List Byte :=
  [0x4F, 0x50, 0x51, 0x52, 0x53, 0x54, 0x55, 0x56, 0x57, 0x58, 0x59, 0x5A, 0x61, 0x62, 0x63, 0x64]

/-- Values 32..47: `efghijklmnopqrst`. -/
def alphaRow2 : List Byte :=
  [0x65, 0x66, 0x67, 0x68, 0x69, 0x6A, 0x6B, 0x6C, 0x6D, 0x6E, 0x6F, 0x70, 0x71, 0x72, 0x73, 0x74]

/-- Values 48..63: `uvwxyz0123456789`. -/
def alphaRow3 : List Byte :=
  [0x75, 0x76, 0x77, 0x78, 0x79, 0x7A, 0x30, 0x31, 0x32, 0x33, 0x34, 0x35, 0x36, 0x37, 0x38, 0x39]

/-- The ROM `ALPHA`: 64 entries of 8 bits (R17, R56). -/
def alphaRom : List Byte := alphaRow0 ++ alphaRow1 ++ alphaRow2 ++ alphaRow3

/-- `ALPHA[v]` (R7, R17). The default is never used: all 64 indices are populated (R42). -/
def alpha (v : Sym) : Byte := alphaRom.getD v.toNat 0

/-- `REV(c)` (R18): the v in 0..63 with `ALPHA[v] = c`, or none. -/
def rev (c : Byte) : Option Sym :=
  ((List.range 64).map (BitVec.ofNat 6)).find? fun v => alpha v == c

end Sys2Proof.Machine
end

