-- ==== Sys2Proof/Machine/GroupCodec.lean ====
section
/-! DEFINITION. The group codec (41_group_codec.md): the pure functions of R74 to R78, then ENCODE and
DECODE. -/

namespace Sys2Proof.Machine

/-! ### One group -/

/-- `x[7:2]`: the first symbol of a group (R60). -/
def sym0 (x : Byte) : Sym := x.extractLsb' 2 6

/-- `x[1:0] : y[7:4]`: the second symbol (R60). -/
def sym1 (x y : Byte) : Sym := x.extractLsb' 0 2 ++ y.extractLsb' 4 4

/-- `y[3:0] : z[7:6]`: the third symbol (R60). -/
def sym2 (y z : Byte) : Sym := y.extractLsb' 0 4 ++ z.extractLsb' 6 2

/-- `z[5:0]`: the fourth symbol (R60). -/
def sym3 (z : Byte) : Sym := z.extractLsb' 0 6

/-- `EncGroup3` (R74). -/
def encGroup3 (x y z : Byte) : List Byte :=
  [alpha (sym0 x), alpha (sym1 x y), alpha (sym2 y z), alpha (sym3 z)]

/-- `EncGroup2` (R74): the low 2 bits of the last symbol are zero. -/
def encGroup2 (x y : Byte) : List Byte :=
  [alpha (sym0 x), alpha (sym1 x y), alpha (y.extractLsb' 0 4 ++ 0#2)]

/-- `EncGroup1` (R74): the low 4 bits of the last symbol are zero. -/
def encGroup1 (x : Byte) : List Byte :=
  [alpha (sym0 x), alpha (x.extractLsb' 0 2 ++ 0#4)]

/-- `v0 : v1[5:4]`: the first byte of a group (R60). -/
def byte0 (v0 v1 : Sym) : Byte := v0 ++ v1.extractLsb' 4 2

/-- `v1[3:0] : v2[5:2]`: the second byte (R60). -/
def byte1 (v1 v2 : Sym) : Byte := v1.extractLsb' 0 4 ++ v2.extractLsb' 2 4

/-- `v2[1:0] : v3`: the third byte (R60). -/
def byte2 (v2 v3 : Sym) : Byte := v2.extractLsb' 0 2 ++ v3

/-- `DecGroup4` (R75). -/
def decGroup4 (v0 v1 v2 v3 : Sym) : List Byte := [byte0 v0 v1, byte1 v1 v2, byte2 v2 v3]

/-- `DecGroup3` (R75): `v2[1:0]` is dropped unchecked (R82). -/
def decGroup3 (v0 v1 v2 : Sym) : List Byte := [byte0 v0 v1, byte1 v1 v2]

/-- `DecGroup2` (R75): `v1[3:0]` is dropped unchecked (R82). -/
def decGroup2 (v0 v1 : Sym) : List Byte := [byte0 v0 v1]

/-! ### A whole buffer -/

/-- `enc_bytes(B)` (R76): total, never padded. -/
def encBytes : List Byte → List Byte
  | x :: y :: z :: rest => encGroup3 x y z ++ encBytes rest
  | [x, y] => encGroup2 x y
  | [x] => encGroup1 x
  | [] => []

/-- The body of `dec_text(T)` (R77): full groups left to right, then the remainder. A single trailing
character is not looked up. -/
def decGroups : List Byte → Except DecodeError (List Byte)
  | c0 :: c1 :: c2 :: c3 :: rest =>
    match rev c0, rev c1, rev c2, rev c3 with
    | some v0, some v1, some v2, some v3 =>
      match decGroups rest with
      | .ok bs => .ok (decGroup4 v0 v1 v2 v3 ++ bs)
      | .error e => .error e
    | _, _, _, _ => .error .invalidCharacter
  | [c0, c1, c2] =>
    match rev c0, rev c1, rev c2 with
    | some v0, some v1, some v2 => .ok (decGroup3 v0 v1 v2)
    | _, _, _ => .error .invalidCharacter
  | [c0, c1] =>
    match rev c0, rev c1 with
    | some v0, some v1 => .ok (decGroup2 v0 v1)
    | _, _ => .error .invalidCharacter
  | [_] => .error .length
  | [] => .ok []

/-- `dec_text(T)` under the given `P_DECODE_ERR_ORDER` (R77, R78). -/
def decText (order : DecodeErrOrder) (t : List Byte) : Except DecodeError (List Byte) :=
  if order = .lengthFirst ∧ t.length % 4 = 1 then .error .length else decGroups t

/-! ### The commands -/

/-- ENCODE n, m (R80). -/
def execEncode (n m : Nat) (s : State) : Host.Outcome State Fault Refusal :=
  takeCommand (.encode n m) s fun s =>
    if m ≠ encLen n then
      return s.raiseFault .bufferSize
    else do
      let b ← memReadRange s 0 n
      let s ← memWriteFrom s 0 (encBytes b)
      return s.succeed none

/-- DECODE n, m (R81): the contract check comes before any character is looked up (R113). -/
def execDecode (n m : Nat) (s : State) : Host.Outcome State Fault Refusal :=
  takeCommand (.decode n m) s fun s =>
    if m ≠ decLen n then
      return s.raiseFault .bufferSize
    else do
      let t ← memReadRange s 0 n
      match decText Config.params.decodeErrOrder t with
      | .ok b =>
        let s ← memWriteFrom s 0 b
        return s.succeed none
      | .error e => return s.fail (.dec e) none

end Sys2Proof.Machine
end

