-- ==== Sys2Proof/Machine/RecordCodec.lean ====
section
/-! DEFINITION. The record formatter and parser (42_record.md): FORMAT and PARSE. -/

namespace Sys2Proof.Machine

/-- The 60-byte text of a record (R63, R93): `$2b$`, the work factor, `$`, the salt, the digest. -/
def formatText (r : Record) : List Byte :=
  header2b ++ wfText r.wf ++ [dollar] ++ encBytes r.salt ++ encBytes r.digest

/-- The separator check of `P_SEP_POLICY` on byte 6 (R96): the kind it fails with, if it fails. -/
def sepError (policy : SepPolicy) (c : Option Byte) : Option ParseError :=
  match policy with
  | .ignore => none
  | .reject k => if c = some dollar then none else some k

/-- Steps 1 to 6 of PARSE on a text (R94), each tried only if the earlier ones passed (R98). -/
def parseText (p : Params) (t : List Byte) : Except ParseError Record :=
  if t.length ≠ 60 then .error .length
  else if slice t 0 4 ∉ acceptedHeaders then .error .header
  else
    match parseWf p (t.getD 4 0) (t.getD 5 0) with
    | none => .error .workFactor
    | some wf =>
      match sepError p.sepPolicy t[6]? with
      | some k => .error k
      | none =>
        match decText p.decodeErrOrder (slice t 7 29) with
        | .error _ => .error .salt
        | .ok salt =>
          match decText p.decodeErrOrder (slice t 29 60) with
          | .error _ => .error .hash
          | .ok digest => .ok ⟨wf, salt, digest⟩

/-- FORMAT (R93). -/
def execFormat (s : State) : Host.Outcome State Fault Refusal :=
  takeCommand .format s fun s => do
    let wf ← memRead s 0
    let salt ← memReadRange s 1 16
    let digest ← memReadRange s 17 23
    if wfLegal Config.params wf then
      let s ← memWriteFrom s 0 (formatText ⟨wf, salt, digest⟩)
      return s.succeed none
    else
      return s.raiseFault .operandRange

/-- PARSE n (R94). -/
def execParse (n : Nat) (s : State) : Host.Outcome State Fault Refusal :=
  takeCommand (.parse n) s fun s => do
    let t ← memReadRange s 0 n
    match parseText Config.params t with
    | .ok r =>
      let s ← memWriteFrom s 0 (recordBytes r)
      return s.succeed none
    | .error k => return s.fail (.parse k) none

end Sys2Proof.Machine
end

