-- ==== Sys2Proof/Machine/SymbolCodec.lean ====
section
/-! DEFINITION. The symbol codec (40_symbol_codec.md): ENC6 and DEC8. -/

namespace Sys2Proof.Machine

/-- `zext_8(v)` of a symbol value (R6, R71): bits 7..6 are 0. -/
def symByte (v : Sym) : Byte := v.setWidth 8

/-- ENC6 (R70). -/
def execEnc6 (s : State) : Host.Outcome State Fault Refusal :=
  takeCommand .enc6 s fun s => do
    let x ← memRead s 0
    if x.extractLsb' 6 2 ≠ 0#2 then
      return s.raiseFault .operandRange
    else
      let s ← memWrite s 0 (alpha (x.extractLsb' 0 6))
      return s.succeed none

/-- DEC8 (R71): `valid` is 1 exactly when the status is OK. -/
def execDec8 (s : State) : Host.Outcome State Fault Refusal :=
  takeCommand .dec8 s fun s => do
    let c ← memRead s 0
    match rev c with
    | some v =>
      let s ← memWrite s 0 (symByte v)
      return s.succeed (some true)
    | none => return s.fail (.dec .invalidCharacter) (some false)

end Sys2Proof.Machine
end

