-- ==== Sys2Proof/Machine/Dispatch.lean ====
section
/-! DEFINITION. The six commands and their meanings (30_encoding.md R49). -/

namespace Sys2Proof.Machine

/-- Run one decoded command on the input buffer of the state. -/
def exec (i : Instr) (s : State) : Host.Outcome State Fault Refusal :=
  match i with
  | .enc6 => Sys2Proof.Machine.execEnc6 s
  | .dec8 => Sys2Proof.Machine.execDec8 s
  | .encode n m => Sys2Proof.Machine.execEncode n m s
  | .decode n m => Sys2Proof.Machine.execDecode n m s
  | .format => Sys2Proof.Machine.execFormat s
  | .parse n => Sys2Proof.Machine.execParse n s

end Sys2Proof.Machine
end

