-- ==== Sys2Proof/Machine/HostPort.lean ====
section
/-! DEFINITION. How the block answers what the host does (10_state.md R25, R26, R29; the order of checks of
60_exceptions.md R113), and how a command is placed as the host's next action. -/

namespace Sys2Proof.Machine

/-- One transaction (R26, R113): refused while FAULT = 1, without reading `cmd` or `din` (R111); Fault
ILLEGAL_COMMAND on an illegal word, whatever `din` holds (R66, R109); else the command runs on `din`. -/
def issueCommand (t : Transaction) (s : State) : Host.Outcome State Fault Refusal :=
  if s.fault then .next s.refuseCommand
  else
    match decodeCmd t.cmd with
    | .error _ => .next (s.raiseFault .illegalCommand)
    | .ok i => exec i (s.present t.din)

/-- The host reads an output (R29). -/
def readPort (p : OutPort) (s : State) : Host.Outcome State Fault Refusal :=
  match hostRead s p with
  | .ok r => .next (s.deliver r)
  | .error f => .fault f

/-- One host action on the block (R29, R113). With `rst` asserted a presented command is not taken (R127). -/
def hostStep (a : HostAction) (s : State) : Host.Outcome State Fault Refusal :=
  match a with
  | .reset _ => .next (resetBlock s)
  | .issue t => issueCommand t s
  | .read p => readPort p s

/-- The block takes the host's next action; where the host does nothing, nothing changes (R122). -/
def takeHostAction (s : State) : Host.Outcome State Fault Refusal :=
  match s.host with
  | [] => .next s
  | a :: rest => hostStep a (s.popHost rest)

/-- The host action that a line of a test program stands for (R68): issue its word with its data operands;
none where either does not assemble (R69; assumption 21). -/
def lineAction (l : AsmLine) (d : AsmData) : Option HostAction :=
  match l.assemble, d.bytes with
  | some w, some din => some (.issue ⟨w, din⟩)
  | _, _ => none

/-- An input buffer of `L_in(cmd)` bytes that meets the command's contract, for `placeCommand`: the value
0 for ENC6 and ENCODE, the character `'.'` for DEC8, DECODE and PARSE, the record (4, 0…0, 0…0) for FORMAT. -/
def sampleDin : Instr → List Byte
  | .enc6 => [0x00]
  | .dec8 => [0x2E]
  | .encode n _ => List.replicate n 0x00
  | .decode n _ => List.replicate n 0x2E
  | .format => 0x04 :: List.replicate 39 0x00
  | .parse n => List.replicate n 0x2E

/-- The transaction that issues a word: an illegal word needs no input bytes (R66, R111). -/
def sampleTransaction (w : CmdWord) : Transaction :=
  match decodeCmd w with
  | .ok i => ⟨w, sampleDin i⟩
  | .error _ => ⟨w, []⟩

/-- The state in which the host issues the word next (assumption 6). -/
def placeCommand (s : State) (w : CmdWord) : State :=
  { s with host := .issue (sampleTransaction w) :: s.host }

end Sys2Proof.Machine
end

