-- ==== Sys2Proof/Machine/Instances.lean ====
section
/-! DEFINITION. Several instances of the block (10_state.md R31, 60_exceptions.md R120): each has a state of
its own, and a step of one instance is a step of its state alone. -/

namespace Sys2Proof.Machine

/-- The number of instances is `N_INSTANCES` (R5). -/
def systemSized (sys : List State) : Prop := sys.length = Config.nInstances

/-- Instance k takes its host's next action; an index without an instance does nothing. -/
def stepInstance (k : Nat) (sys : List State) : Host.Outcome (List State) Fault Refusal :=
  match sys[k]? with
  | none => .next sys
  | some s =>
    match step s with
    | .next s' => .next (sys.set k s')
    | .fault f => .fault f
    | .refused r => .refused r

end Sys2Proof.Machine
end

