-- ==== Sys2Proof/Safety.lean ====
section
/-! DEFINITION. The terms claims are stated in: the outcome of a transaction (10_state.md R26), a run that went
wrong (R30), the invariant of the machine (R22, R28, R36, R37), canonical texts (41_group_codec.md R86), and the
bit stream of a buffer (20_memory.md R39). -/

namespace Sys2Proof.Machine

/-! ### Outcomes and runs -/

/-- An outcome as the host sees it (R26). A byte of `dout` that is POISON is none. -/
inductive TxOutcome where
  | success (dout : List (Option Byte)) (valid : Option Bool)
  | error (k : ErrorKind) (dout : List (Option Byte)) (valid : Option Bool)
  | fault (c : Cause)
  | refused
deriving DecidableEq, Repr

/-- The `L_out(cmd)` bytes of `dout`; none is POISON (R25, R27). -/
def State.doutBytes (s : State) : List (Option Byte) := (List.range s.doutLen).map s.dout.read

/-- The outcome the last transaction since reset returned; none before the first (R26, R128). -/
def State.outcome (s : State) : Option TxOutcome :=
  match s.answer with
  | .noneYet => none
  | .success => some (.success s.doutBytes s.valid)
  | .error k => some (.error k s.doutBytes s.valid)
  | .fault c => some (.fault c)
  | .refused => some .refused

/-- The outcomes returned in `k` steps, oldest first (R30). A step that answers no transaction returns none. -/
def outcomesOf : Nat → State → List TxOutcome
  | 0, _ => []
  | k + 1, s =>
    match s.host, step s with
    | .issue _ :: _, .next t => t.outcome.toList ++ outcomesOf k t
    | _, .next t => outcomesOf k t
    | _, _ => []

/-- A run that ended in this state went wrong (R30). -/
def State.wentWrong (s : State) : Bool := s.fault

/-- The host does not assert `rst` in these actions. -/
def resetFree (actions : List HostAction) : Bool :=
  actions.all fun a => match a with
    | .reset _ => false
    | _ => true

/-! ### The states after the outcomes of a command

Each is the state before the command with the fields changed that the outcome changes, and no other: a
statement that says one of them says the whole frame of the command. -/

/-- After Success with the output bytes `t` (R26, R28); `valid` is none where it is POISON (R25). -/
def State.withSuccess (s : State) (t : List Byte) (valid : Option Bool) : State :=
  { s with answer := .success, valid := valid, doutLen := t.length, dout := Memory.ofBytes t, din := [] }

/-- After Error(k) of a command with `len` output bytes, all of them POISON (R26, R28, R37). -/
def State.withError (s : State) (k : ErrorKind) (len : Nat) (valid : Option Bool) : State :=
  { s with answer := .error k, valid := valid, doutLen := len, dout := [], din := [] }

/-- After Fault(c): FAULT = 1, FCAUSE = the code of c (R55), no output (R26, R28, R110). -/
def State.withFault (s : State) (c : Cause) : State :=
  { s with fault := true, fcause := c.code, answer := .fault c, valid := none, doutLen := 0, dout := [], din := [] }

/-- After a refused command: no register changed, no output (R28, R111). -/
def State.withRefused (s : State) : State :=
  { s with answer := .refused, valid := none, doutLen := 0, dout := [], din := [] }

/-- The contract check of a command on its input buffer, and its cause (the table of R109; R113 item 4). -/
def contractCause : Instr → List Byte → Option Cause
  | .enc6, din => if ∃ x ∈ din.head?, 64 ≤ x.toNat then some .operandRange else none
  | .dec8, _ => none
  | .encode n m, _ => if m = (4 * n + 2) / 3 then none else some .bufferSize
  | .decode n m, _ => if m = 3 * n / 4 then none else some .bufferSize
  | .format, din => if ∃ x ∈ din.head?, 99 < x.toNat ∨ Config.wfSupported x.toNat = false then some .operandRange else none
  | .parse _, _ => none

/-! ### The invariant -/

/-- The legal values of the fault registers (R22). -/
def State.FaultPairLegal (s : State) : Prop :=
  (s.fault = false → s.fcause = 0) ∧ (s.fault = true → s.fcause = 1 ∨ s.fcause = 2 ∨ s.fcause = 3)

/-- The outputs that stand after each outcome (R28, R36, R37, R110, R111). -/
def State.OutputsMatchAnswer (s : State) : Prop :=
  match s.answer with
  | .noneYet => s.fault = false ∧ s.doutLen = 0 ∧ s.valid = none
  | .success => s.fault = false ∧ ∀ i < s.doutLen, (s.dout.read i).isSome = true
  | .error _ => s.fault = false ∧ s.dout = []
  | .fault c => s.fault = true ∧ s.fcause = c.code ∧ s.doutLen = 0 ∧ s.valid = none
  | .refused => s.fault = true ∧ s.doutLen = 0 ∧ s.valid = none

/-- The invariant of the block between transactions. -/
structure State.Inv (s : State) : Prop where
  /-- FAULT and FCAUSE hold legal values (R22). -/
  faultPair : s.FaultPairLegal
  /-- DOUT is in its canonical form. -/
  doutCanonical : s.dout.wf = true
  /-- No byte outside DOUT was written (R35). -/
  doutInside : ∀ c ∈ s.dout, c.1 < s.doutLen
  /-- DOUT fits its 12-bit address space (R33). -/
  doutFits : s.doutLen ≤ Config.maxLen
  /-- DIN does not outlive its transaction (R33). -/
  dinGone : s.din = []
  /-- The outputs are those of the last outcome. -/
  outputs : s.OutputsMatchAnswer

/-! ### Texts -/

/-- A byte of the alphabet: `REV` is `some` there (R42). -/
def inAlphabet (c : Byte) : Bool := (rev c).isSome

/-- How many characters of a text of n characters are looked up: a single trailing one is not (R77). -/
def lookedUp (n : Nat) : Nat := if n % 4 = 1 then n - 1 else n

/-- How many of its characters lie in full groups (R40). -/
def inFullGroups (n : Nat) : Nat := n - n % 4

/-- The discarded bits of a symbol that ends a text of n characters are zero (R61, R86). -/
def discardedZero (n : Nat) (v : Sym) : Bool :=
  if n % 4 = 2 then v.extractLsb' 0 4 == 0#4
  else if n % 4 = 3 then v.extractLsb' 0 2 == 0#2
  else true

/-- The last character of a text has zero discarded bits; an empty text has no character (R86). -/
def lastDiscardedZero (t : List Byte) : Bool :=
  match t.getLast? with
  | none => true
  | some c =>
    match rev c with
    | some v => discardedZero t.length v
    | none => false

/-- A canonical text: it decodes, and the discarded bits of its last character are zero (R86). -/
def CanonicalText (t : List Byte) : Prop :=
  (∃ b, decText .streamOrder t = .ok b) ∧ lastDiscardedZero t = true

/-- The bits of the symbol value that a trailing text of n characters keeps: all six, the top two where
n mod 4 = 2, the top four where n mod 4 = 3 (R61, R82). -/
def keptBits (n : Nat) (v : Sym) : Nat :=
  if n % 4 = 2 then v.toNat / 16
  else if n % 4 = 3 then v.toNat / 4
  else v.toNat

/-! ### The known vector (R102; 95_test_vectors.md V-R1) -/

/-- `$2b$04$cVWp4XaNU8a4v1uMRum2SO026BWLIoQMD/TXg5uZV.0P.uO8m3YEm` (R102). -/
def knownText : List Byte :=
  [0x24, 0x32, 0x62, 0x24, 0x30, 0x34, 0x24] ++
  [0x63, 0x56, 0x57, 0x70, 0x34, 0x58, 0x61, 0x4E, 0x55, 0x38, 0x61, 0x34, 0x76, 0x31, 0x75, 0x4D, 0x52, 0x75, 0x6D,
    0x32, 0x53, 0x4F] ++
  [0x30, 0x32, 0x36, 0x42, 0x57, 0x4C, 0x49, 0x6F, 0x51, 0x4D, 0x44, 0x2F, 0x54, 0x58, 0x67, 0x35, 0x75, 0x5A, 0x56,
    0x2E, 0x30, 0x50, 0x2E, 0x75, 0x4F, 0x38, 0x6D, 0x33, 0x59, 0x45, 0x6D]

/-- The work factor 4, the salt and the digest of V-R1. -/
def knownRecord : List Byte :=
  [0x04] ++
  [0x79, 0x76, 0x2B, 0xE9, 0x97, 0x0F, 0x5B, 0xE7, 0x3A, 0xC7, 0x7C, 0x0E, 0x4F, 0x0A, 0x38, 0x51] ++
  [0xDB, 0x8F, 0x03, 0x60, 0xD2, 0xAA, 0x48, 0xE1, 0x41, 0x55, 0x98, 0xBB, 0xC1, 0xB5, 0xC0, 0xD9, 0x10, 0x30, 0x43,
    0xEA, 0x39, 0x68, 0x6A]

/-! ### The bit stream of a buffer (R39) -/

/-- The low `k` bits of a number, most significant first. -/
def bitsMsb : Nat → Nat → List Bool
  | 0, _ => []
  | k + 1, n => n.testBit k :: bitsMsb k n

/-- The bits of raw bytes, the first byte's most significant bit first (R39). -/
def byteStream (b : List Byte) : List Bool := b.flatMap fun x => bitsMsb 8 x.toNat

/-- The bits of the symbol values of a text, six for each character of the alphabet (R39). -/
def symbolStream (t : List Byte) : List Bool :=
  t.flatMap fun c => match rev c with
    | some v => bitsMsb 6 v.toNat
    | none => []

end Sys2Proof.Machine
end

