-- ==== Sys2Proof/Certificates/Slice0/Obligations.lean ====
section
/-! DEFINITION. The statements for the provers. Each names the rules of spec/ it formalises; a clause that
rests on the model's own choice says so and names the log entry. -/

open Sys2Proof Sys2Proof.Machine

/-! ### Encodings -/

/-- R48, R67, R68: decoding the word of a command gives the command back, with every length the two
12-bit fields can hold. -/
def Obligations.DecodeOfEncodedCommand : Prop :=
  ∀ i : Instr, i.wellFormed = true → decodeCmd (encodeCmd i) = .ok i

/-- R67, R68: a legal word is the encoding of the one command it decodes to, whose lengths fit. -/
def Obligations.EncodeOfDecodedWord : Prop :=
  ∀ (w : CmdWord) (i : Instr), decodeCmd w = .ok i → i.wellFormed = true ∧ encodeCmd i = w

/-- R67: `decode_cmd` on every 32-bit word, with the fields taken from the word's number. -/
def Obligations.DecodeCommandTable : Prop :=
  ∀ (w : CmdWord) (i : Instr),
    decodeCmd w = .ok i ↔
      w.toNat / 16 % 16 = 0 ∧
        let op := w.toNat % 16
        let n := w.toNat / 2 ^ 8 % 2 ^ 12
        let m := w.toNat / 2 ^ 20
        (op = 1 ∧ n = 0 ∧ m = 0 ∧ i = .enc6) ∨ (op = 2 ∧ n = 0 ∧ m = 0 ∧ i = .dec8) ∨
        (op = 3 ∧ i = .encode n m) ∨ (op = 4 ∧ i = .decode n m) ∨
        (op = 5 ∧ n = 0 ∧ m = 0 ∧ i = .format) ∨ (op = 6 ∧ m = 0 ∧ i = .parse n)

/-- R68, R69: the words the spec writes out decode to the commands they stand for, and the
pseudo-instructions give those words. -/
def Obligations.WrittenOutWordsDecode : Prop :=
  decodeCmd 0x00000001#32 = .ok .enc6 ∧ decodeCmd 0x00000002#32 = .ok .dec8 ∧
  decodeCmd 0x01601003#32 = .ok (.encode 16 22) ∧ decodeCmd 0x01001604#32 = .ok (.decode 22 16) ∧
  decodeCmd 0x00000005#32 = .ok .format ∧ decodeCmd 0x00003C06#32 = .ok (.parse 60) ∧
  AsmLine.encSalt.assemble = some 0x01601003#32 ∧ AsmLine.encDigest.assemble = some 0x01F01703#32 ∧
  AsmLine.decSalt.assemble = some 0x01001604#32 ∧ AsmLine.decDigest.assemble = some 0x01701F04#32 ∧
  AsmLine.parse60.assemble = some 0x00003C06#32

/-- R69: ENCODE.FIT assembles exactly for n ≤ 3071, and the FIT forms give words that decode to the command
with the exact output length. -/
def Obligations.FitFormsAssemble : Prop :=
  (∀ n, n ≤ 3071 →
    ∃ w, (AsmLine.encodeFit n).assemble = some w ∧ decodeCmd w = .ok (.encode n ((4 * n + 2) / 3))) ∧
  (∀ n, 3071 < n → (AsmLine.encodeFit n).assemble = none) ∧
  (∀ n, n ≤ 4095 →
    ∃ w, (AsmLine.decodeFit n).assemble = some w ∧ decodeCmd w = .ok (.decode n (3 * n / 4)))

/-! ### The step and the host's actions -/

/-- R16, R26: when FAULT = 0 and the host issues a word that decodes to i, the step is exec of i on the
state whose DIN is the host's buffer and whose host list has the action taken off; nothing else is added
around exec.
The host list is the model's own field (log entry 1). -/
def Obligations.StepRunsDecodedCommand : Prop :=
  ∀ (s : State) (w : CmdWord) (din : List Byte) (rest : List HostAction) (i : Instr),
    s.host = .issue ⟨w, din⟩ :: rest → s.fault = false → decodeCmd w = .ok i →
    step s = exec i { s with host := rest, din := din }

/-- R66, R109, R110: an illegal word faults ILLEGAL_COMMAND, whatever the input buffer holds.
That no output of an earlier transaction stands after the fault is the model's reading (log entry 5). -/
def Obligations.IllegalWordFaults : Prop :=
  ∀ (s : State) (w : CmdWord) (din : List Byte) (rest : List HostAction),
    s.host = .issue ⟨w, din⟩ :: rest → s.fault = false →
    (let op := w.toNat % 16
     let n := w.toNat / 2 ^ 8 % 2 ^ 12
     let m := w.toNat / 2 ^ 20
     op = 0 ∨ 7 ≤ op ∨ w.toNat / 16 % 16 ≠ 0 ∨
       ((op = 1 ∨ op = 2 ∨ op = 5) ∧ (n ≠ 0 ∨ m ≠ 0)) ∨ (op = 6 ∧ m ≠ 0)) →
    step s = .next (State.withFault { s with host := rest } .illegalCommand)

/-- R111: while FAULT = 1 every command is Refused, whatever word and buffer the host presents; no register
changes. That the outputs of an earlier transaction do not stand afterwards is the model's choice (log
entry 5). -/
def Obligations.FaultedBlockRefusesCommand : Prop :=
  (∀ (s : State) (t : Transaction) (rest : List HostAction),
    s.host = .issue t :: rest → s.fault = true →
    step s = .next (State.withRefused { s with host := rest })) ∧
  (∀ (i : Instr) (s : State), s.fault = true → exec i s = .next s.withRefused)

/-- R125, R126, R127: a reset step from any state leaves every piece of mutable state at its reset value,
and a command presented meanwhile is not taken. What the host does next and has read is kept (the model's
own fields, log entries 1 and 2). -/
def Obligations.ResetStepClearsBlock : Prop :=
  ∀ (s : State) (p : Option Transaction) (rest : List HostAction),
    s.host = .reset p :: rest →
    step s = .next
      { fault := false, fcause := 0, din := [], answer := .noneYet, valid := none, doutLen := 0, dout := [],
        host := rest, seen := s.seen }

/-- R126, R128: until the first transaction after reset completes, `status`, `valid` and every byte of
`dout` read as no value. A step that is no transaction leaves the block so. -/
def Obligations.OutputsPoisonBeforeFirstOutcome : Prop :=
  State.reset.answer = .noneYet ∧
  ∀ s : State, s.Inv → s.answer = .noneYet →
    (hostRead s .status = .error (.poisonRead .status) ∧ hostRead s .valid = .error (.poisonRead .valid) ∧
      (∀ j, ∃ f, hostRead s (.dout j) = .error f)) ∧
    ∀ t : State, step s = .next t → (∀ x rest, s.host ≠ .issue x :: rest) → t.answer = .noneYet

/-- R22, R29: the host reads FAULT and FCAUSE at any time, and the read changes nothing in the block.
The fields `host` and `seen` are the model's own (log entries 1 and 2). -/
def Obligations.FaultRegistersReadAnytime : Prop :=
  ∀ (s : State) (rest : List HostAction),
    (s.host = .read .fault :: rest → step s = .next { s with host := rest, seen := some (.fault s.fault) }) ∧
    (s.host = .read .fcause :: rest → step s = .next { s with host := rest, seen := some (.fcause s.fcause) })

/-- R29, R37, R130: a host's read of `dout`, `status` or `valid` delivers the value where it is defined, and
stops the model where it is POISON or where `dout` has no such byte. `status` has no value before the first
outcome (R128) and after a Fault or a Refused outcome, which return none (R110, R111).
The statement rests on the model's own readings: that no `status` of an earlier transaction stands after a
Fault or a Refused outcome (log entry 5), that a value can be read until the next transaction or a reset and
stands after the read (log entry 18), that a read of `dout` past its end stops (log entry 19), and that
`host` and `seen` are the model's own fields (log entries 1 and 2). -/
def Obligations.OutputReadsDeliverOrStop : Prop :=
  ∀ (s : State) (rest : List HostAction),
    (∀ j, s.host = .read (.dout j) :: rest →
      (∀ b, j < s.doutLen → s.dout.read j = some b →
        step s = .next { s with host := rest, seen := some (.dout b) }) ∧
      (j < s.doutLen → s.dout.read j = none → step s = .fault (.poisonRead (.dout j))) ∧
      (s.doutLen ≤ j → step s = .fault (.doutRead j))) ∧
    (s.host = .read .status :: rest →
      (s.answer = .success → step s = .next { s with host := rest, seen := some (.status 0) }) ∧
      (∀ k, s.answer = .error k → step s = .next { s with host := rest, seen := some (.status k.code) }) ∧
      (s.answer = .noneYet → step s = .fault (.poisonRead .status)) ∧
      (∀ c, s.answer = .fault c → step s = .fault (.poisonRead .status)) ∧
      (s.answer = .refused → step s = .fault (.poisonRead .status))) ∧
    (s.host = .read .valid :: rest →
      (∀ b, s.valid = some b → step s = .next { s with host := rest, seen := some (.valid b) }) ∧
      (s.valid = none → step s = .fault (.poisonRead .valid)))

/-! ### The symbol codec -/

/-- R58, R59: the two ROMs agree with their closed forms.
The spec marks R58 and R59 as derived from R56, R57 and R18. -/
def Obligations.RomsMatchClosedForms : Prop :=
  (∀ v : Sym, (alpha v).toNat =
    if v.toNat = 0 then 0x2E else if v.toNat = 1 then 0x2F
    else if v.toNat ≤ 27 then v.toNat + 0x3F else if v.toNat ≤ 53 then v.toNat + 0x45 else v.toNat - 0x06) ∧
  (∀ c : Byte, (rev c).map BitVec.toNat =
    if c.toNat = 0x2E then some 0 else if c.toNat = 0x2F then some 1
    else if 0x30 ≤ c.toNat ∧ c.toNat ≤ 0x39 then some (c.toNat + 0x06)
    else if 0x41 ≤ c.toNat ∧ c.toNat ≤ 0x5A then some (c.toNat - 0x3F)
    else if 0x61 ≤ c.toNat ∧ c.toNat ≤ 0x7A then some (c.toNat - 0x45)
    else none)

/-- R70: ENC6 on a value below 64 succeeds with its character, and faults OPERAND_RANGE on a larger one.
Nothing else of the state changes.
That no output of an earlier transaction stands after the fault is the model's reading (log entry 5). -/
def Obligations.Enc6EncodesOrFaults : Prop :=
  ∀ (s : State) (x : Byte), s.fault = false → s.din = [x] →
    (x.toNat < 64 → exec .enc6 s = .next (s.withSuccess [alpha (BitVec.ofNat 6 x.toNat)] none)) ∧
    (64 ≤ x.toNat → exec .enc6 s = .next (s.withFault .operandRange))

/-- R71: DEC8 on an alphabet character succeeds with its value and `valid` 1; on any other byte it returns
DEC_INVALID_CHARACTER with `valid` 0 and the value byte POISON. -/
def Obligations.Dec8DecodesOrRejects : Prop :=
  ∀ (s : State) (c : Byte), s.fault = false → s.din = [c] →
    (∀ v, rev c = some v →
      exec .dec8 s = .next (s.withSuccess [BitVec.ofNat 8 v.toNat] (some true))) ∧
    (rev c = none →
      exec .dec8 s = .next (s.withError (.dec .invalidCharacter) 1 (some false)))

/-- R72: DEC8 undoes ENC6 on 0..63, ENC6 undoes DEC8 where that succeeds, and ENC6 is a bijection onto the
alphabet bytes.
The spec marks R72 as derived from R70, R71 and R19. -/
def Obligations.SymbolUnitsAreInverse : Prop :=
  (∀ (s : State) (v : Sym), s.fault = false →
    exec .dec8 { s with din := [alpha v] } = .next (s.withSuccess [BitVec.ofNat 8 v.toNat] (some true))) ∧
  (∀ (s t : State) (c x : Byte), s.fault = false → exec .dec8 { s with din := [c] } = .next t →
    t.answer = .success → t.dout.read 0 = some x →
    exec .enc6 { s with din := [x] } = .next (s.withSuccess [c] none)) ∧
  Function.Injective alpha ∧ (∀ c, inAlphabet c = true ↔ ∃ v, alpha v = c)

/-! ### The group codec -/

/-- R80: ENCODE with the exact output length succeeds with `enc_bytes` of its input; with any other output
length it faults BUFFER_SIZE.
That no output of an earlier transaction stands after the fault is the model's reading (log entry 5). -/
def Obligations.EncodeCommandEffect : Prop :=
  ∀ (s : State) (n m : Nat), s.fault = false → s.din.length = n →
    (m = (4 * n + 2) / 3 → exec (.encode n m) s = .next (s.withSuccess (encBytes s.din) none)) ∧
    (m ≠ (4 * n + 2) / 3 → exec (.encode n m) s = .next (s.withFault .bufferSize))

/-- R80: an ENCODE of 3072 bytes or more that a command word can hold always faults BUFFER_SIZE.
That no output of an earlier transaction stands after the fault is the model's reading (log entry 5). -/
def Obligations.LongEncodeAlwaysFaults : Prop :=
  ∀ (s : State) (w : CmdWord) (n m : Nat), decodeCmd w = .ok (.encode n m) → 3072 ≤ n → s.fault = false →
    s.din.length = n → exec (.encode n m) s = .next (s.withFault .bufferSize)

/-- R80: every output byte of an encode is an alphabet byte. -/
def Obligations.EncodedBytesAreInAlphabet : Prop :=
  ∀ b : List Byte, ∀ c ∈ encBytes b, inAlphabet c = true

/-- R79: the output lengths, and when `dec_text` answers DEC_LENGTH.
The spec marks R79 as derived from R62, R76 and R77. -/
def Obligations.CodecOutputLengths : Prop :=
  (∀ b : List Byte, (encBytes b).length = (4 * b.length + 2) / 3) ∧
  (∀ (o : DecodeErrOrder) (t b : List Byte), decText o t = .ok b → b.length = 3 * t.length / 4) ∧
  (∀ t : List Byte, decText .streamOrder t = .error .length ↔
    t.length % 4 = 1 ∧ ∀ c ∈ t.take (inFullGroups t.length), inAlphabet c = true)

/-- R39, R60, R61: the symbol values of an encoded buffer are its bits, most significant first, six at a
time, the last symbol filled up with zero bits. -/
def Obligations.EncodePacksBitsMsbFirst : Prop :=
  ∀ b : List Byte,
    symbolStream (encBytes b) =
      byteStream b ++ List.replicate (6 * ((4 * b.length + 2) / 3) - 8 * b.length) false

/-- R39, R60, R61, R82: the bytes of a decoded text are the bits of its symbol values, most significant
first, eight at a time; the discarded bits are those left over. -/
def Obligations.DecodeUnpacksBitsMsbFirst : Prop :=
  ∀ (o : DecodeErrOrder) (t b : List Byte), decText o t = .ok b →
    byteStream b = (symbolStream t).take (8 * (3 * t.length / 4))

/-- R81, R113: DECODE with the exact output length answers what `dec_text` (StreamOrder) answers; with any
other output length it faults BUFFER_SIZE whatever characters it holds.
That no output of an earlier transaction stands after the fault is the model's reading (log entry 5).
StreamOrder is the order the spec takes (log entry 10). -/
def Obligations.DecodeCommandEffect : Prop :=
  ∀ (s : State) (n m : Nat), s.fault = false → s.din.length = n →
    (∀ b, m = 3 * n / 4 → decText .streamOrder s.din = .ok b →
      exec (.decode n m) s = .next (s.withSuccess b none)) ∧
    (∀ e, m = 3 * n / 4 → decText .streamOrder s.din = .error e →
      exec (.decode n m) s = .next (s.withError (.dec e) m none)) ∧
    (m ≠ 3 * n / 4 → exec (.decode n m) s = .next (s.withFault .bufferSize))

/-- R73, R77: what `dec_text` (StreamOrder) answers, from the characters alone: a bad character among those
looked up, else the length, else success. The single trailing character is never looked up. -/
def Obligations.DecodeAnswerFromCharacters : Prop :=
  ∀ t : List Byte,
    (decText .streamOrder t = .error .invalidCharacter ↔
      ∃ c ∈ t.take (lookedUp t.length), inAlphabet c = false) ∧
    (decText .streamOrder t = .error .length ↔
      t.length % 4 = 1 ∧ ∀ c ∈ t.take (lookedUp t.length), inAlphabet c = true) ∧
    ((∃ b, decText .streamOrder t = .ok b) ↔
      t.length % 4 ≠ 1 ∧ ∀ c ∈ t, inAlphabet c = true)

/-- R78: LengthFirst answers DEC_LENGTH on every text of length 1 modulo 4 and else what StreamOrder
answers; the two differ exactly where such a text has a bad character in a full group. -/
def Obligations.DecodeErrorOrdersCompared : Prop :=
  ∀ t : List Byte,
    (t.length % 4 = 1 → decText .lengthFirst t = .error .length) ∧
    (t.length % 4 ≠ 1 → decText .lengthFirst t = decText .streamOrder t) ∧
    (decText .lengthFirst t ≠ decText .streamOrder t ↔
      t.length % 4 = 1 ∧ ∃ c ∈ t.take (inFullGroups t.length), inAlphabet c = false)

/-- R83: `dec_text(enc_bytes(B)) = Ok(B)` for every buffer, and ENCODE followed by DECODE on its output
returns the original bytes.
The spec marks R83 as derived from R19 and R74 to R77. -/
def Obligations.DecodeUndoesEncode : Prop :=
  (∀ (o : DecodeErrOrder) (b : List Byte), decText o (encBytes b) = .ok b) ∧
  (∀ (s : State) (b : List Byte), s.fault = false → b.length ≤ 3071 →
    (Instr.encode b.length ((4 * b.length + 2) / 3)).wellFormed = true ∧
    (Instr.decode ((4 * b.length + 2) / 3) b.length).wellFormed = true ∧
    ∃ t text, exec (.encode b.length ((4 * b.length + 2) / 3)) { s with din := b } = .next t ∧
      t.dout = Memory.ofBytes text ∧ text.length = (4 * b.length + 2) / 3 ∧
      exec (.decode ((4 * b.length + 2) / 3) b.length) { t with din := text } =
        .next (s.withSuccess b none))

/-- R84: empty input. -/
def Obligations.EmptyInputCodes : Prop :=
  encBytes [] = [] ∧ (∀ o, decText o [] = .ok []) ∧
  (∀ s : State, s.fault = false → s.din = [] →
    exec (.encode 0 0) s = .next (s.withSuccess [] none) ∧ exec (.decode 0 0) s = .next (s.withSuccess [] none))

/-- R82: the discarded bits of a text's last character take no part in the result and are not checked; its
kept bits do, and a character outside the alphabet there is an error (but for a single trailing character of
a length 1 modulo 4, which is never looked up). -/
def Obligations.DiscardedBitsAreIgnored : Prop :=
  (∀ (t : List Byte) (c c' : Byte) (v v' : Sym), rev c = some v → rev c' = some v' →
    (keptBits (t.length + 1) v = keptBits (t.length + 1) v' →
      decText .streamOrder (t ++ [c]) = decText .streamOrder (t ++ [c'])) ∧
    (∀ b, decText .streamOrder (t ++ [c]) = .ok b → decText .streamOrder (t ++ [c']) = .ok b →
      keptBits (t.length + 1) v = keptBits (t.length + 1) v')) ∧
  (∀ (t : List Byte) (x : Byte), rev x = none → (t.length + 1) % 4 ≠ 1 →
    ∃ e, decText .streamOrder (t ++ [x]) = .error e)

/-- R85: how many texts decode to the same bytes as a text, by its length modulo 4; they differ in the last
character only.
The spec marks R85 as derived from R75 and R82. -/
def Obligations.DecodeClassSizes : Prop :=
  ∀ t b : List Byte, decText .streamOrder t = .ok b →
    (t.length % 4 = 2 → {u : List Byte | decText .streamOrder u = .ok b}.ncard = 16) ∧
    (t.length % 4 = 3 → {u : List Byte | decText .streamOrder u = .ok b}.ncard = 4) ∧
    (t.length % 4 = 0 → {u : List Byte | decText .streamOrder u = .ok b} = {t}) ∧
    ∀ u, decText .streamOrder u = .ok b → u.length = t.length ∧ u.dropLast = t.dropLast

/-- R86: the canonical texts are exactly the outputs of `enc_bytes`.
The spec marks R86 as derived from R74 and R76. -/
def Obligations.CanonicalTextsAreEncodings : Prop :=
  ∀ t : List Byte, CanonicalText t ↔ ∃ b, t = encBytes b

/-- R87: encoding the decoded bytes gives a canonical text back, and gives the canonical member of its class,
which differs in the last character only, for any other text that decodes.
The spec marks R87 as derived from R83, R85 and R86. -/
def Obligations.ReencodingCanonicalises : Prop :=
  ∀ t b : List Byte, decText .streamOrder t = .ok b →
    (CanonicalText t → encBytes b = t) ∧
    (¬ CanonicalText t →
      CanonicalText (encBytes b) ∧ decText .streamOrder (encBytes b) = .ok b ∧ encBytes b ≠ t ∧
        (encBytes b).length = t.length ∧ (encBytes b).dropLast = t.dropLast)

/-! ### Records -/

/-- R93: FORMAT of a record with a legal work factor succeeds with its text, and faults OPERAND_RANGE on any
other work factor.
That no output of an earlier transaction stands after the fault is the model's reading (log entry 5).
Which work factors are supported is a free value (log entry 3). -/
def Obligations.FormatCommandEffect : Prop :=
  ∀ (s : State) (r : Record), r.Sized → s.fault = false → s.din = recordBytes r →
    (r.wf.toNat ≤ 99 ∧ Config.wfSupported r.wf.toNat = true →
      exec .format s = .next (s.withSuccess (formatText r) none)) ∧
    (99 < r.wf.toNat ∨ Config.wfSupported r.wf.toNat = false →
      exec .format s = .next (s.withFault .operandRange))

/-- R63, R64, R65, R93: the layout of the text FORMAT writes: 60 bytes at fixed offsets, all of them printable
ASCII.
The codes of the characters are those of R57 (log entry 7). -/
def Obligations.FormattedTextLayout : Prop :=
  ∀ r : Record, r.Sized → r.wf.toNat ≤ 99 →
    let t := formatText r
    t.length = 60 ∧ slice t 0 4 = [0x24, 0x32, 0x62, 0x24] ∧
    t[4]? = some (BitVec.ofNat 8 (0x30 + r.wf.toNat / 10)) ∧
    t[5]? = some (BitVec.ofNat 8 (0x30 + r.wf.toNat % 10)) ∧ t[6]? = some 0x24 ∧
    slice t 7 29 = encBytes r.salt ∧ slice t 29 60 = encBytes r.digest ∧
    ∀ c ∈ t, 0x20 ≤ c.toNat ∧ c.toNat ≤ 0x7E

/-- R94: PARSE of a 60-byte text that passes every step succeeds with the record it holds.
Which work factors are supported is a free value (log entry 3); Ignore is the spec's policy (log entry 9). -/
def Obligations.ParseCommandSucceeds : Prop :=
  ∀ (s : State) (d0 d1 : Byte) (salt digest : List Byte), s.fault = false → s.din.length = 60 →
    slice s.din 0 4 ∈ [[0x24, 0x32, 0x61, 0x24], [0x24, 0x32, 0x62, 0x24], [0x24, 0x32, 0x79, 0x24]] →
    s.din[4]? = some d0 → s.din[5]? = some d1 →
    0x30 ≤ d0.toNat ∧ d0.toNat ≤ 0x39 → 0x30 ≤ d1.toNat ∧ d1.toNat ≤ 0x39 →
    Config.wfSupported (10 * (d0.toNat - 0x30) + (d1.toNat - 0x30)) = true →
    decText .streamOrder (slice s.din 7 29) = .ok salt →
    decText .streamOrder (slice s.din 29 60) = .ok digest →
    salt.length = 16 ∧ digest.length = 23 ∧
    exec (.parse 60) s =
      .next (s.withSuccess
        (BitVec.ofNat 8 (10 * (d0.toNat - 0x30) + (d1.toNat - 0x30)) :: (salt ++ digest)) none)

/-- R94, R97, R98: the error of PARSE is that of the first step that fails: the length, the first four bytes,
the work factor, a character outside the alphabet in bytes 7..28, one in bytes 29..59. Under `Ignore` byte 6
is not examined.
Which work factors are supported is a free value (log entry 3); Ignore is the spec's policy (log entry 9). -/
def Obligations.ParseFirstFailureIsReported : Prop :=
  ∀ (s : State) (n : Nat), s.fault = false → s.din.length = n →
    let headerOk := slice s.din 0 4 ∈
      [[0x24, 0x32, 0x61, 0x24], [0x24, 0x32, 0x62, 0x24], [0x24, 0x32, 0x79, 0x24]]
    let wfOk := ∃ d0 d1 : Byte, s.din[4]? = some d0 ∧ s.din[5]? = some d1 ∧
      0x30 ≤ d0.toNat ∧ d0.toNat ≤ 0x39 ∧ 0x30 ≤ d1.toNat ∧ d1.toNat ≤ 0x39 ∧
      Config.wfSupported (10 * (d0.toNat - 0x30) + (d1.toNat - 0x30)) = true
    let saltOk := ∀ c ∈ slice s.din 7 29, inAlphabet c = true
    let hashOk := ∀ c ∈ slice s.din 29 60, inAlphabet c = true
    (n ≠ 60 → exec (.parse n) s = .next (s.withError (.parse .length) 40 none)) ∧
    (n = 60 → ¬ headerOk → exec (.parse n) s = .next (s.withError (.parse .header) 40 none)) ∧
    (n = 60 → headerOk → ¬ wfOk → exec (.parse n) s = .next (s.withError (.parse .workFactor) 40 none)) ∧
    (n = 60 → headerOk → wfOk → ¬ saltOk →
      exec (.parse n) s = .next (s.withError (.parse .salt) 40 none)) ∧
    (n = 60 → headerOk → wfOk → saltOk → ¬ hashOk →
      exec (.parse n) s = .next (s.withError (.parse .hash) 40 none)) ∧
    (n = 60 → headerOk → wfOk → saltOk → hashOk → ∃ t, exec (.parse n) s = .next t ∧ t.answer = .success)

/-- R96: under `Ignore` byte 6 takes no part in a parse; under `Reject(k)` a byte other than `'$'` there fails
with k, after the work factor (an earlier failure is reported as under `Ignore`) and before the salt, and
`'$'` there changes nothing. -/
def Obligations.SeparatorPolicyOnByteSix : Prop :=
  ∀ (p : Params) (t : List Byte) (c : Byte), t.length = 60 →
    (p.sepPolicy = .ignore → parseText p (t.set 6 c) = parseText p t) ∧
    (∀ k, p.sepPolicy = .reject k → t[6]? ≠ some 0x24 → slice t 0 4 ∈ acceptedHeaders →
      (∃ wf, parseWf p (t.getD 4 0) (t.getD 5 0) = some wf) → parseText p t = .error k) ∧
    (∀ k, p.sepPolicy = .reject k →
      slice t 0 4 ∉ acceptedHeaders ∨ parseWf p (t.getD 4 0) (t.getD 5 0) = none →
      parseText p t = parseText { p with sepPolicy := .ignore } t) ∧
    (t[6]? = some 0x24 → parseText p t = parseText { p with sepPolicy := .ignore } t)

/-- R99: two 60-byte texts that differ only in which accepted first four bytes they have parse alike: the
same outcome, the same status, the same record.
The spec marks R99 as derived from R94 and R95. -/
def Obligations.AcceptedHeadersAreEquivalent : Prop :=
  ∀ (s : State) (h h' rest : List Byte), rest.length = 56 →
    h ∈ [[0x24, 0x32, 0x61, 0x24], [0x24, 0x32, 0x62, 0x24], [0x24, 0x32, 0x79, 0x24]] →
    h' ∈ [[0x24, 0x32, 0x61, 0x24], [0x24, 0x32, 0x62, 0x24], [0x24, 0x32, 0x79, 0x24]] →
    exec (.parse 60) { s with din := h ++ rest } = exec (.parse 60) { s with din := h' ++ rest }

/-- R100: re-formatting a parsed record gives the text back exactly when it begins with `$2b$`, has `'$'` at
byte 6 and its salt and digest fields are canonical; in every case it gives the canonical form with the
same work-factor digits, and FORMAT accepts the record. The last clause says the same of the commands PARSE
and FORMAT.
The spec marks R100 as derived from R90, R93, R94, R96 and R87. -/
def Obligations.FormatOfParsedRecord : Prop :=
  (∀ (p : Params) (t : List Byte) (r : Record), p.Admissible → parseText p t = .ok r →
    (formatText r = t ↔
      slice t 0 4 = [0x24, 0x32, 0x62, 0x24] ∧ t[6]? = some 0x24 ∧
        CanonicalText (slice t 7 29) ∧ CanonicalText (slice t 29 60)) ∧
    formatText r =
      [0x24, 0x32, 0x62, 0x24] ++ slice t 4 6 ++ [0x24] ++ encBytes r.salt ++ encBytes r.digest ∧
    r.Sized ∧ r.wf.toNat ≤ 99 ∧ p.wfSupported r.wf.toNat = true) ∧
  (∀ s t : State, exec (.parse 60) s = .next t → t.answer = .success →
    ∃ r, parseText Config.params s.din = .ok r ∧ t.dout = Memory.ofBytes (recordBytes r) ∧
      exec .format { t with din := recordBytes r } = .next (t.withSuccess (formatText r) none))

/-- R101: parsing a formatted record gives the record back, under every admissible set of supported work
factors, every policy for byte 6 and every decode error order; and PARSE after FORMAT does so as commands.
The spec marks R101 as derived from R93, R94 and R83. -/
def Obligations.ParseOfFormattedRecord : Prop :=
  (∀ (p : Params) (r : Record), p.Admissible → r.Sized → r.wf.toNat ≤ 99 →
    p.wfSupported r.wf.toNat = true → parseText p (formatText r) = .ok r) ∧
  (∀ (s : State) (r : Record), s.fault = false → r.Sized → Config.wfSupported r.wf.toNat = true →
    ∃ t text, exec .format { s with din := recordBytes r } = .next t ∧
      t.dout = Memory.ofBytes text ∧ text.length = 60 ∧
      exec (.parse 60) { t with din := text } = .next (s.withSuccess (recordBytes r) none))

/-- R102: the known vector parses with work factor 4 and formats back to itself. The salt and digest bytes
are those of 95_test_vectors.md V-R1, which the spec derives from its own rules. -/
def Obligations.KnownVectorRoundTrips : Prop :=
  ∀ s : State, s.fault = false →
    exec (.parse 60) { s with din := knownText } = .next (s.withSuccess knownRecord none) ∧
    knownRecord.head? = some 4 ∧
    exec .format { s with din := knownRecord } = .next (s.withSuccess knownText none)

/-! ### What every command keeps, and the whole machine -/

/-- R20, R21, R23 to R25: the frame of every command: what the host does next and has read stay; DIN ends
with the transaction; FAULT and FCAUSE stay unless the command faults; and no byte of DOUT at or beyond
L_out(cmd) is written.
The fields `host` and `seen` are the model's own (log entries 1 and 2). -/
def Obligations.CommandFrame : Prop :=
  ∀ (i : Instr) (s t : State), exec i s = .next t →
    t.host = s.host ∧ t.seen = s.seen ∧ t.din = [] ∧
    ((∀ c, t.answer ≠ .fault c) → t.fault = s.fault ∧ t.fcause = s.fcause) ∧
    (∀ a, lOut i ≤ a → t.dout.read a = none)

/-- R105: an Error changes no state: FAULT and FCAUSE keep their values; and the next command is taken normally:
where the host issues another command, a legal word steps to the meaning of its command on the presented
buffer, and an illegal word to fault entry.
The host list is the model's own field (log entry 1). -/
def Obligations.ErrorKeepsRegisters : Prop :=
  ∀ (s t : State) (x : Transaction) (rest : List HostAction) (k : ErrorKind), s.host = .issue x :: rest →
    step s = .next t → t.answer = .error k →
    (t.fault = s.fault ∧ t.fcause = s.fcause ∧ t.fault = false) ∧
    ∀ (w : CmdWord) (din : List Byte) (rest' : List HostAction), t.host = .issue ⟨w, din⟩ :: rest' →
      (∀ i, decodeCmd w = .ok i → step t = exec i { t with host := rest', din := din }) ∧
      (∀ e, decodeCmd w = .error e →
        ∃ u, step t = .next u ∧ u.answer = .fault .illegalCommand ∧ u.fault = true ∧ u.fcause = 1)

/-- R28, R36: when a command succeeds, every one of its L_out(cmd) output bytes is defined, and the host's
read of it delivers a byte. -/
def Obligations.SuccessDefinesEveryByte : Prop :=
  ∀ (i : Instr) (s t : State), exec i s = .next t → t.answer = .success →
    t.doutLen = lOut i ∧ t.dout.wf = true ∧ ∀ j < lOut i, ∃ b, hostRead t (.dout j) = .ok (.dout b)

/-- R37: when a command ends in Error, every byte of `dout` is POISON, whatever was written before the error:
a read of it stops the model. -/
def Obligations.ErrorPoisonsEveryByte : Prop :=
  ∀ (i : Instr) (s t : State) (k : ErrorKind), exec i s = .next t → t.answer = .error k →
    t.doutLen = lOut i ∧ ∀ j < lOut i, hostRead t (.dout j) = .error (.poisonRead (.dout j))

/-- R54, R108: which status codes each command can return; the codes 0x8..0xF are never returned. -/
def Obligations.StatusCodesByCommand : Prop :=
  ∀ (i : Instr) (s t : State) (v : BitVec 4), exec i s = .next t → t.status = some v →
    match i with
    | .enc6 => v = 0
    | .dec8 => v = 0 ∨ v = 1
    | .encode _ _ => v = 0
    | .decode _ _ => v = 0 ∨ v = 1 ∨ v = 2
    | .format => v = 0
    | .parse _ => v = 0 ∨ v = 3 ∨ v = 4 ∨ v = 5 ∨ v = 6 ∨ v = 7

/-- R109, R113: the order of checks on an issued command: refused while FAULT = 1, then an illegal word, then
the command's contract check, and only then an error or success. The second clause's buffer has
L_in(cmd) bytes (R27). -/
def Obligations.ChecksInOrder : Prop :=
  ∀ (s : State) (w : CmdWord) (din : List Byte) (rest : List HostAction), s.host = .issue ⟨w, din⟩ :: rest →
    (s.fault = true → ∃ t, step s = .next t ∧ t.answer = .refused) ∧
    (∀ e, s.fault = false → decodeCmd w = .error e →
      ∃ t, step s = .next t ∧ t.answer = .fault .illegalCommand) ∧
    (∀ i c, s.fault = false → decodeCmd w = .ok i → din.length = lIn i → contractCause i din = some c →
      ∃ t, step s = .next t ∧ t.answer = .fault c) ∧
    (∀ i, s.fault = false → decodeCmd w = .ok i → din.length = lIn i → contractCause i din = none →
      ∃ t, step s = .next t ∧ (t.answer = .success ∨ ∃ k, t.answer = .error k))

/-- R34, R35: no command reads outside DIN or writes outside DOUT. The model stops on a command only where
the host presents another number of bytes than L_in(cmd) (R27; log entry 4). -/
def Obligations.CommandsStayInsideBuffers : Prop :=
  ∀ (i : Instr) (s : State),
    (∀ f, exec i s ≠ .fault f) ∧
    (∀ r, exec i s = .refused r ↔
      s.fault = false ∧ s.din.length ≠ lIn i ∧ r = .dinLength (lIn i) s.din.length)

/-- R25, R43, R103: the outcome of a command depends on nothing but the command, DIN and FAULT. -/
def Obligations.OutcomeDependsOnOperandsOnly : Prop :=
  ∀ (i : Instr) (s s' t : State), s'.fault = s.fault → s'.din = s.din → exec i s = .next t →
    ∃ t', exec i s' = .next t' ∧ t'.outcome = t.outcome ∧ t'.status = t.status ∧ t'.valid = t.valid ∧
      t'.dout = t.dout

/-- R41: a command issued again with the same `cmd` and `din` while FAULT = 0 returns the same outcome. -/
def Obligations.RepeatedCommandSameOutcome : Prop :=
  ∀ (s t : State) (x : Transaction) (rest : List HostAction),
    s.host = .issue x :: .issue x :: rest → s.fault = false → step s = .next t → t.fault = false →
    ∃ u, step t = .next u ∧ u.outcome = t.outcome ∧ u.fault = t.fault ∧ u.fcause = t.fcause

/-- R20, R110, R112: only fault entry sets FAULT, with its cause in FCAUSE, and only reset clears it. -/
def Obligations.FaultSetByEntryClearedByReset : Prop :=
  ∀ s t : State, step s = .next t →
    (s.fault = false → t.fault = true →
      ∃ c x rest, s.host = .issue x :: rest ∧ t.answer = .fault c ∧ t.fcause = c.code) ∧
    (s.fault = true → t.fault = false → ∃ p rest, s.host = .reset p :: rest) ∧
    (s.fault = true → t.fault = true → t.fcause = s.fcause)

/-- R111, R112: as long as the host asserts no reset, a faulted block stays faulted with the cause of its
first fault over any number of steps, and every outcome it returns is Refused. -/
def Obligations.FaultedRunIsRefused : Prop :=
  ∀ (k : Nat) (s t : State), s.fault = true → resetFree s.host = true → core.run k s = .next t →
    t.fault = true ∧ t.fcause = s.fcause ∧ ∀ o ∈ outcomesOf k s, o = .refused

/-- R22, R28, R126: the invariant holds at reset. -/
def Obligations.ResetMeetsInv : Prop := State.reset.Inv

/-- R22, R28, R33, R35 to R37: every step keeps the invariant: FAULT and FCAUSE hold legal values, DOUT is
canonical and within its bounds, fully defined after Success and POISON after Error, and DIN does not
outlive its transaction.
That no output stands after Fault and Refused is the model's reading (log entry 5). -/
def Obligations.StepKeepsInv : Prop :=
  ∀ s t : State, s.Inv → step s = .next t → t.Inv

/-- R31, R120: a step of one instance changes no other instance and depends on no other instance. -/
def Obligations.InstancesAreIndependent : Prop :=
  ∀ (k : Nat) (sys sys' new : List State), stepInstance k sys = .next new →
    (∀ j, j ≠ k → new[j]? = sys[j]?) ∧
    (sys'[k]? = sys[k]? → ∃ new', stepInstance k sys' = .next new' ∧ new'[k]? = new[k]?)
end

