-- ==== Sys2Proof/Laws/State.lean ====
section
/-! SUPPORT. One lemma per field of State and per named update, so that no proof unfolds a record update. -/

namespace Sys2Proof.Machine

/-! State.present -/

@[simp] theorem State.present_fault (s : State) (din : List Byte) : (s.present din).fault = s.fault := rfl
@[simp] theorem State.present_fcause (s : State) (din : List Byte) : (s.present din).fcause = s.fcause := rfl
@[simp] theorem State.present_din (s : State) (din : List Byte) : (s.present din).din = din := rfl
@[simp] theorem State.present_answer (s : State) (din : List Byte) : (s.present din).answer = s.answer := rfl
@[simp] theorem State.present_valid (s : State) (din : List Byte) : (s.present din).valid = s.valid := rfl
@[simp] theorem State.present_doutLen (s : State) (din : List Byte) : (s.present din).doutLen = s.doutLen := rfl
@[simp] theorem State.present_dout (s : State) (din : List Byte) : (s.present din).dout = s.dout := rfl
@[simp] theorem State.present_host (s : State) (din : List Byte) : (s.present din).host = s.host := rfl
@[simp] theorem State.present_seen (s : State) (din : List Byte) : (s.present din).seen = s.seen := rfl

/-! State.popHost -/

@[simp] theorem State.popHost_fault (s : State) (rest : List HostAction) : (s.popHost rest).fault = s.fault := rfl
@[simp] theorem State.popHost_fcause (s : State) (rest : List HostAction) : (s.popHost rest).fcause = s.fcause := rfl
@[simp] theorem State.popHost_din (s : State) (rest : List HostAction) : (s.popHost rest).din = s.din := rfl
@[simp] theorem State.popHost_answer (s : State) (rest : List HostAction) : (s.popHost rest).answer = s.answer := rfl
@[simp] theorem State.popHost_valid (s : State) (rest : List HostAction) : (s.popHost rest).valid = s.valid := rfl
@[simp] theorem State.popHost_doutLen (s : State) (rest : List HostAction) : (s.popHost rest).doutLen = s.doutLen := rfl
@[simp] theorem State.popHost_dout (s : State) (rest : List HostAction) : (s.popHost rest).dout = s.dout := rfl
@[simp] theorem State.popHost_host (s : State) (rest : List HostAction) : (s.popHost rest).host = rest := rfl
@[simp] theorem State.popHost_seen (s : State) (rest : List HostAction) : (s.popHost rest).seen = s.seen := rfl

/-! State.openDout -/

@[simp] theorem State.openDout_fault (s : State) (len : Nat) : (s.openDout len).fault = s.fault := rfl
@[simp] theorem State.openDout_fcause (s : State) (len : Nat) : (s.openDout len).fcause = s.fcause := rfl
@[simp] theorem State.openDout_din (s : State) (len : Nat) : (s.openDout len).din = s.din := rfl
@[simp] theorem State.openDout_answer (s : State) (len : Nat) : (s.openDout len).answer = s.answer := rfl
@[simp] theorem State.openDout_valid (s : State) (len : Nat) : (s.openDout len).valid = none := rfl
@[simp] theorem State.openDout_doutLen (s : State) (len : Nat) : (s.openDout len).doutLen = len := rfl
@[simp] theorem State.openDout_dout (s : State) (len : Nat) : (s.openDout len).dout = [] := rfl
@[simp] theorem State.openDout_host (s : State) (len : Nat) : (s.openDout len).host = s.host := rfl
@[simp] theorem State.openDout_seen (s : State) (len : Nat) : (s.openDout len).seen = s.seen := rfl

/-! State.succeed -/

@[simp] theorem State.succeed_fault (s : State) (v : Option Bool) : (s.succeed v).fault = s.fault := rfl
@[simp] theorem State.succeed_fcause (s : State) (v : Option Bool) : (s.succeed v).fcause = s.fcause := rfl
@[simp] theorem State.succeed_din (s : State) (v : Option Bool) : (s.succeed v).din = [] := rfl
@[simp] theorem State.succeed_answer (s : State) (v : Option Bool) : (s.succeed v).answer = .success := rfl
@[simp] theorem State.succeed_valid (s : State) (v : Option Bool) : (s.succeed v).valid = v := rfl
@[simp] theorem State.succeed_doutLen (s : State) (v : Option Bool) : (s.succeed v).doutLen = s.doutLen := rfl
@[simp] theorem State.succeed_dout (s : State) (v : Option Bool) : (s.succeed v).dout = s.dout := rfl
@[simp] theorem State.succeed_host (s : State) (v : Option Bool) : (s.succeed v).host = s.host := rfl
@[simp] theorem State.succeed_seen (s : State) (v : Option Bool) : (s.succeed v).seen = s.seen := rfl

/-! State.fail -/

@[simp] theorem State.fail_fault (s : State) (k : ErrorKind) (v : Option Bool) : (s.fail k v).fault = s.fault := rfl
@[simp] theorem State.fail_fcause (s : State) (k : ErrorKind) (v : Option Bool) : (s.fail k v).fcause = s.fcause := rfl
@[simp] theorem State.fail_din (s : State) (k : ErrorKind) (v : Option Bool) : (s.fail k v).din = [] := rfl
@[simp] theorem State.fail_answer (s : State) (k : ErrorKind) (v : Option Bool) : (s.fail k v).answer = .error k := rfl
@[simp] theorem State.fail_valid (s : State) (k : ErrorKind) (v : Option Bool) : (s.fail k v).valid = v := rfl
@[simp] theorem State.fail_doutLen (s : State) (k : ErrorKind) (v : Option Bool) : (s.fail k v).doutLen = s.doutLen := rfl
@[simp] theorem State.fail_dout (s : State) (k : ErrorKind) (v : Option Bool) : (s.fail k v).dout = [] := rfl
@[simp] theorem State.fail_host (s : State) (k : ErrorKind) (v : Option Bool) : (s.fail k v).host = s.host := rfl
@[simp] theorem State.fail_seen (s : State) (k : ErrorKind) (v : Option Bool) : (s.fail k v).seen = s.seen := rfl

/-! State.raiseFault -/

@[simp] theorem State.raiseFault_fault (s : State) (c : Cause) : (s.raiseFault c).fault = true := rfl
@[simp] theorem State.raiseFault_fcause (s : State) (c : Cause) : (s.raiseFault c).fcause = c.code := rfl
@[simp] theorem State.raiseFault_din (s : State) (c : Cause) : (s.raiseFault c).din = [] := rfl
@[simp] theorem State.raiseFault_answer (s : State) (c : Cause) : (s.raiseFault c).answer = .fault c := rfl
@[simp] theorem State.raiseFault_valid (s : State) (c : Cause) : (s.raiseFault c).valid = none := rfl
@[simp] theorem State.raiseFault_doutLen (s : State) (c : Cause) : (s.raiseFault c).doutLen = 0 := rfl
@[simp] theorem State.raiseFault_dout (s : State) (c : Cause) : (s.raiseFault c).dout = [] := rfl
@[simp] theorem State.raiseFault_host (s : State) (c : Cause) : (s.raiseFault c).host = s.host := rfl
@[simp] theorem State.raiseFault_seen (s : State) (c : Cause) : (s.raiseFault c).seen = s.seen := rfl

/-! State.refuseCommand -/

@[simp] theorem State.refuseCommand_fault (s : State) : (s.refuseCommand).fault = s.fault := rfl
@[simp] theorem State.refuseCommand_fcause (s : State) : (s.refuseCommand).fcause = s.fcause := rfl
@[simp] theorem State.refuseCommand_din (s : State) : (s.refuseCommand).din = [] := rfl
@[simp] theorem State.refuseCommand_answer (s : State) : (s.refuseCommand).answer = .refused := rfl
@[simp] theorem State.refuseCommand_valid (s : State) : (s.refuseCommand).valid = none := rfl
@[simp] theorem State.refuseCommand_doutLen (s : State) : (s.refuseCommand).doutLen = 0 := rfl
@[simp] theorem State.refuseCommand_dout (s : State) : (s.refuseCommand).dout = [] := rfl
@[simp] theorem State.refuseCommand_host (s : State) : (s.refuseCommand).host = s.host := rfl
@[simp] theorem State.refuseCommand_seen (s : State) : (s.refuseCommand).seen = s.seen := rfl

/-! State.deliver -/

@[simp] theorem State.deliver_fault (s : State) (r : Reading) : (s.deliver r).fault = s.fault := rfl
@[simp] theorem State.deliver_fcause (s : State) (r : Reading) : (s.deliver r).fcause = s.fcause := rfl
@[simp] theorem State.deliver_din (s : State) (r : Reading) : (s.deliver r).din = s.din := rfl
@[simp] theorem State.deliver_answer (s : State) (r : Reading) : (s.deliver r).answer = s.answer := rfl
@[simp] theorem State.deliver_valid (s : State) (r : Reading) : (s.deliver r).valid = s.valid := rfl
@[simp] theorem State.deliver_doutLen (s : State) (r : Reading) : (s.deliver r).doutLen = s.doutLen := rfl
@[simp] theorem State.deliver_dout (s : State) (r : Reading) : (s.deliver r).dout = s.dout := rfl
@[simp] theorem State.deliver_host (s : State) (r : Reading) : (s.deliver r).host = s.host := rfl
@[simp] theorem State.deliver_seen (s : State) (r : Reading) : (s.deliver r).seen = some r := rfl

/-! resetBlock -/

@[simp] theorem resetBlock_fault (s : State) : (resetBlock s).fault = false := rfl
@[simp] theorem resetBlock_fcause (s : State) : (resetBlock s).fcause = 0 := rfl
@[simp] theorem resetBlock_din (s : State) : (resetBlock s).din = [] := rfl
@[simp] theorem resetBlock_answer (s : State) : (resetBlock s).answer = .noneYet := rfl
@[simp] theorem resetBlock_valid (s : State) : (resetBlock s).valid = none := rfl
@[simp] theorem resetBlock_doutLen (s : State) : (resetBlock s).doutLen = 0 := rfl
@[simp] theorem resetBlock_dout (s : State) : (resetBlock s).dout = [] := rfl
@[simp] theorem resetBlock_host (s : State) : (resetBlock s).host = s.host := rfl
@[simp] theorem resetBlock_seen (s : State) : (resetBlock s).seen = s.seen := rfl

end Sys2Proof.Machine
end

