-- ==== Sys2Proof/Laws/Ops.lean ====
section
/-! SUPPORT. What each shared operation can do, said once: the cells of DOUT, `MemRead` and `MemWrite` over
a whole buffer, and the start of a command. -/

namespace Sys2Proof.Machine

/-! ### Cells -/

/-- Every index of a canonical buffer after its first cell is larger than that cell's. -/
theorem Memory.wf_cons {a : Nat} {x : Byte} {m : Memory} :
    Memory.wf ((a, x) :: m) = true ↔ (∀ c ∈ m, a < c.1) ∧ Memory.wf m = true := by
  induction m generalizing a x with
  | nil => simp [Memory.wf]
  | cons c rest ih =>
    obtain ⟨b, y⟩ := c
    rw [Memory.wf, Bool.and_eq_true, decide_eq_true_iff]
    constructor
    · rintro ⟨hab, hw⟩
      refine ⟨?_, hw⟩
      intro c hc
      rcases List.mem_cons.1 hc with rfl | hc
      · exact hab
      · exact lt_trans hab ((ih.1 hw).1 c hc)
    · rintro ⟨hlt, hw⟩
      exact ⟨hlt (b, y) List.mem_cons_self, hw⟩

/-- The cells of a buffer after a write. -/
theorem Memory.mem_write {m : Memory} {i : Nat} {v : Byte} {c : Host.Cell} (h : c ∈ m.write i v) :
    c = (i, v) ∨ c ∈ m := by
  induction m with
  | nil => simpa [Memory.write] using h
  | cons d rest ih =>
    obtain ⟨a, x⟩ := d
    simp only [Memory.write] at h
    split at h
    · simpa using h
    · split at h
      · next heq =>
        subst heq
        rcases List.mem_cons.1 h with rfl | h
        · exact .inl rfl
        · exact .inr (List.mem_cons_of_mem _ h)
      · rcases List.mem_cons.1 h with rfl | h
        · exact .inr List.mem_cons_self
        · rcases ih h with rfl | h
          · exact .inl rfl
          · exact .inr (List.mem_cons_of_mem _ h)

/-- A write keeps the canonical form. -/
theorem Memory.wf_write {m : Memory} (h : m.wf = true) (i : Nat) (v : Byte) : (m.write i v).wf = true := by
  induction m with
  | nil => rfl
  | cons d rest ih =>
    obtain ⟨a, x⟩ := d
    obtain ⟨hlt, hw⟩ := Memory.wf_cons.1 h
    simp only [Memory.write]
    split
    · next hia =>
      refine Memory.wf_cons.2 ⟨?_, h⟩
      intro c hc
      rcases List.mem_cons.1 hc with rfl | hc
      · exact hia
      · exact lt_trans hia (hlt c hc)
    · split
      · exact Memory.wf_cons.2 ⟨hlt, hw⟩
      · next hia hne =>
        refine Memory.wf_cons.2 ⟨?_, ih hw⟩
        intro c hc
        rcases Memory.mem_write hc with rfl | hc
        · exact Nat.lt_of_le_of_ne (Nat.le_of_not_lt hia) (Ne.symm hne)
        · exact hlt c hc

/-- A read after a write to the same index gives the byte written; a write leaves every other index
alone. -/
theorem Memory.read_write (m : Memory) (i j : Nat) (v : Byte) :
    (m.write i v).read j = if j = i then some v else m.read j := by
  induction m with
  | nil => simp [Memory.write, Memory.read]
  | cons d rest ih =>
    obtain ⟨a, x⟩ := d
    simp only [Memory.write]
    split
    · simp [Memory.read]
    · split
      · next heq =>
        subst heq
        by_cases hj : j = i <;> simp [Memory.read, hj]
      · next hia hne =>
        by_cases hj : j = a
        · subst hj
          simp [Memory.read, Ne.symm hne]
        · simp [Memory.read, hj, ih]

/-- The cells of a buffer made of bytes lie at `k`, `k + 1`, …. -/
theorem Memory.mem_ofBytesFrom {l : List Byte} {k : Nat} {c : Host.Cell} (h : c ∈ Memory.ofBytesFrom k l) :
    k ≤ c.1 ∧ c.1 < k + l.length := by
  induction l generalizing k with
  | nil => simp [Memory.ofBytesFrom] at h
  | cons b rest ih =>
    rcases List.mem_cons.1 h with rfl | h
    · simp
    · have := ih h
      simp only [List.length_cons]
      omega

/-- A buffer made of bytes is canonical. -/
theorem Memory.wf_ofBytesFrom (k : Nat) (l : List Byte) : (Memory.ofBytesFrom k l).wf = true := by
  induction l generalizing k with
  | nil => rfl
  | cons b rest ih =>
    refine Memory.wf_cons.2 ⟨?_, ih (k + 1)⟩
    intro c hc
    exact (Memory.mem_ofBytesFrom hc).1

/-- A buffer made of bytes reads as those bytes, and as POISON beside them. -/
theorem Memory.read_ofBytesFrom (l : List Byte) (k i : Nat) :
    (Memory.ofBytesFrom k l).read i = if k ≤ i then l[i - k]? else none := by
  induction l generalizing k with
  | nil => simp [Memory.ofBytesFrom, Memory.read]
  | cons b rest ih =>
    rw [Memory.ofBytesFrom, Memory.read, ih]
    rcases Nat.lt_trichotomy i k with h | h | h
    · simp [h.ne, Nat.not_le_of_lt h, Nat.not_le_of_lt (Nat.lt_succ_of_lt h)]
    · simp [h]
    · have : i - k = (i - (k + 1)) + 1 := by omega
      simp [h.ne', h.le, Nat.succ_le_of_lt h, this]

/-- The whole buffer `l` reads as `l`. -/
theorem Memory.read_ofBytes (l : List Byte) (i : Nat) : (Memory.ofBytes l).read i = l[i]? := by
  simp [Memory.ofBytes, Memory.read_ofBytesFrom]

/-- Writing just past the end of a buffer appends a cell. -/
theorem Memory.write_append (m : Memory) (i : Nat) (v : Byte) (h : ∀ c ∈ m, c.1 < i) :
    m.write i v = m ++ [(i, v)] := by
  induction m with
  | nil => rfl
  | cons d rest ih =>
    obtain ⟨a, x⟩ := d
    have ha : a < i := h (a, x) List.mem_cons_self
    simp only [Memory.write, if_neg (Nat.not_lt_of_lt ha), if_neg ha.ne', List.cons_append]
    rw [ih fun c hc => h c (List.mem_cons_of_mem _ hc)]

/-! ### MemRead and MemWrite over a range -/

/-- A read inside DIN gives the byte there (R34). -/
theorem memRead_eq {s : State} {i : Nat} {b : Byte} (h : s.din[i]? = some b) : memRead s i = .ok b := by
  simp [memRead, h]

/-- A read past DIN stops the model (R34). -/
theorem memRead_past {s : State} {i : Nat} (h : s.din.length ≤ i) : memRead s i = .error (.dinRead i) := by
  simp [memRead, List.getElem?_eq_none h]

/-- Reading a range inside DIN gives that slice of it. -/
theorem memReadRange_eq (s : State) (k len : Nat) (h : k + len ≤ s.din.length) :
    memReadRange s k len = .ok ((s.din.drop k).take len) := by
  induction len generalizing k with
  | zero => simp [memReadRange]
  | succ n ih =>
    have hk : k < s.din.length := by omega
    rw [memReadRange, memRead_eq (List.getElem?_eq_getElem hk), ih (k + 1) (by omega),
      List.drop_eq_getElem_cons hk]
    rfl

/-- Reading all of DIN gives it. -/
theorem memReadRange_all {s : State} {n : Nat} (h : s.din.length = n) : memReadRange s 0 n = .ok s.din := by
  subst h
  simp [memReadRange_eq s 0 s.din.length (by omega)]

/-- Writing bytes past the ones already written, inside DOUT, appends them. -/
theorem memWriteFrom_eq (l : List Byte) (s : State) (k : Nat) (hk : ∀ c ∈ s.dout, c.1 < k)
    (h : k + l.length ≤ s.doutLen) :
    memWriteFrom s k l = .ok { s with dout := s.dout ++ Memory.ofBytesFrom k l } := by
  induction l generalizing s k with
  | nil => simp [memWriteFrom, Memory.ofBytesFrom]
  | cons b rest ih =>
    simp only [List.length_cons] at h
    have hlt : k < s.doutLen := by omega
    have hw : memWrite s k b = .ok { s with dout := s.dout ++ [(k, b)] } := by
      simp [memWrite, hlt, Memory.write_append s.dout k b hk]
    have hk' : ∀ c ∈ s.dout ++ [(k, b)], c.1 < k + 1 := by
      intro c hc
      rcases List.mem_append.1 hc with hc | hc
      · exact Nat.lt_succ_of_lt (hk c hc)
      · obtain rfl := List.mem_singleton.1 hc
        exact Nat.lt_succ_self k
    rw [memWriteFrom, hw]
    refine (ih { s with dout := s.dout ++ [(k, b)] } (k + 1) hk' (by simp only; omega)).trans ?_
    simp [Memory.ofBytesFrom]

/-- Writing a text that fills DOUT from its start (R36). -/
theorem memWriteFrom_open {s : State} {n : Nat} {l : List Byte} (h : l.length = n) :
    memWriteFrom (s.openDout n) 0 l = .ok { s.openDout n with dout := Memory.ofBytes l } := by
  rw [memWriteFrom_eq l (s.openDout n) 0 (by simp) (by simp [h])]
  rfl

/-! ### The start of a command -/

/-- While FAULT = 1 a command is refused (R111). -/
theorem takeCommand_faulted {i : Instr} {s : State} {run : State → Except Fault State} (h : s.fault = true) :
    takeCommand i s run = .next s.refuseCommand := by
  simp [takeCommand, h]

/-- An unfaulted block with `L_in(cmd)` bytes in DIN runs the command on a fresh DOUT (R36, R113). -/
theorem takeCommand_run {i : Instr} {s : State} {run : State → Except Fault State} (h : s.fault = false)
    (hl : s.din.length = lIn i) : takeCommand i s run = toOutcome (run (s.openDout (lOut i))) := by
  simp [takeCommand, h, hl]

/-- With another number of bytes in DIN the model stops by name (R27). -/
theorem takeCommand_dinLength {i : Instr} {s : State} {run : State → Except Fault State} (h : s.fault = false)
    (hl : s.din.length ≠ lIn i) :
    takeCommand i s run = .refused (.dinLength (lIn i) s.din.length) := by
  simp [takeCommand, h, hl]

/-- Everything a command's start can lead to when it ends in a next state. -/
theorem takeCommand_next {i : Instr} {s t : State} {run : State → Except Fault State}
    (h : takeCommand i s run = .next t) :
    (s.fault = true ∧ t = s.refuseCommand) ∨
      (s.fault = false ∧ s.din.length = lIn i ∧ run (s.openDout (lOut i)) = .ok t) := by
  unfold takeCommand at h
  split at h
  · next hf => exact .inl ⟨hf, by cases h; rfl⟩
  · next hf =>
    split at h
    · next hl =>
      refine .inr ⟨by simpa using hf, hl, ?_⟩
      cases hr : run (s.openDout (lOut i)) with
      | ok u => rw [hr] at h; cases h; rfl
      | error f => rw [hr] at h; cases h
    · cases h

/-! ### The host's reads -/

/-- A read of `status` that has a value delivers it (R29). -/
theorem hostRead_status_value {s : State} {v : BitVec 4} (h : s.status = some v) :
    hostRead s .status = .ok (.status v) := by
  simp [hostRead, h]

/-- A read of `status` that has none stops (R37, R128). -/
theorem hostRead_status_none {s : State} (h : s.status = none) :
    hostRead s .status = .error (.poisonRead .status) := by
  simp [hostRead, h]

/-- `status` has a value exactly after Success and after Error (R110, R111, R128). -/
theorem status_isSome_iff {s : State} :
    s.status.isSome = true ↔ s.answer = .success ∨ ∃ k, s.answer = .error k := by
  unfold State.status
  cases s.answer <;> simp

end Sys2Proof.Machine
end

