-- ==== Sys2Proof/Laws/PerInstr.lean ====
section
/-! SUPPORT. The fields of every command's word (30_encoding.md R48, R49, R51), one lemma per constructor. -/

namespace Sys2Proof.Laws

/-- The four fields of a packed word (R48). -/
theorem packWord_fields (op : BitVec 4) {n m : Nat} (hn : n ≤ Config.maxLen) (hm : m ≤ Config.maxLen) :
    opField (packWord op n m) = op.toNat ∧ rsvField (packWord op n m) = 0 ∧
      lenInField (packWord op n m) = n ∧ lenOutField (packWord op n m) = m := by
  have hn' : n < 2 ^ 12 := Nat.lt_succ_of_le hn
  have hm' : m < 2 ^ 12 := Nat.lt_succ_of_le hm
  have hop : op.toNat < 2 ^ 4 := op.isLt
  have hw : (packWord op n m).toNat = m * 2 ^ 20 + n * 2 ^ 8 + op.toNat := by
    simp only [packWord, BitVec.toNat_append, BitVec.toNat_ofNat, Nat.mod_eq_of_lt hn', Nat.mod_eq_of_lt hm',
      ← Nat.shiftLeft_add_eq_or_of_lt hn', ← Nat.shiftLeft_add_eq_or_of_lt hop, Nat.zero_mod, Nat.or_zero]
    simp only [Nat.shiftLeft_eq]
    omega
  simp only [opField, rsvField, lenInField, lenOutField, BitVec.extractLsb'_toNat, hw,
    Nat.shiftRight_eq_div_pow]
  omega

namespace EncFields

/-- The word of a command has its OP, RSV = 0 and its lengths in their fields. -/
def Statement (i : Instr) : Prop :=
  i.wellFormed = true →
    rsvField (encodeCmd i) = 0 ∧
    match i with
    | .enc6 => opField (encodeCmd i) = 1 ∧ lenInField (encodeCmd i) = 0 ∧ lenOutField (encodeCmd i) = 0
    | .dec8 => opField (encodeCmd i) = 2 ∧ lenInField (encodeCmd i) = 0 ∧ lenOutField (encodeCmd i) = 0
    | .encode n m => opField (encodeCmd i) = 3 ∧ lenInField (encodeCmd i) = n ∧ lenOutField (encodeCmd i) = m
    | .decode n m => opField (encodeCmd i) = 4 ∧ lenInField (encodeCmd i) = n ∧ lenOutField (encodeCmd i) = m
    | .format => opField (encodeCmd i) = 5 ∧ lenInField (encodeCmd i) = 0 ∧ lenOutField (encodeCmd i) = 0
    | .parse n => opField (encodeCmd i) = 6 ∧ lenInField (encodeCmd i) = n ∧ lenOutField (encodeCmd i) = 0

theorem enc6 : Statement .enc6 := fun _ => by decide

theorem dec8 : Statement .dec8 := fun _ => by decide

theorem encode (n m : Nat) : Statement (.encode n m) := fun h => by
  simp only [Instr.wellFormed, Bool.and_eq_true, decide_eq_true_iff] at h
  obtain ⟨ho, hr, hn, hm⟩ := packWord_fields 3#4 h.1 h.2
  exact ⟨hr, ho, hn, hm⟩

theorem decode (n m : Nat) : Statement (.decode n m) := fun h => by
  simp only [Instr.wellFormed, Bool.and_eq_true, decide_eq_true_iff] at h
  obtain ⟨ho, hr, hn, hm⟩ := packWord_fields 4#4 h.1 h.2
  exact ⟨hr, ho, hn, hm⟩

theorem format : Statement .format := fun _ => by decide

theorem parse (n : Nat) : Statement (.parse n) := fun h => by
  simp only [Instr.wellFormed, decide_eq_true_iff] at h
  obtain ⟨ho, hr, hn, hm⟩ := packWord_fields 6#4 h (Nat.zero_le _)
  exact ⟨hr, ho, hn, hm⟩

end EncFields

end Sys2Proof.Laws
end

