-- ==== Sys2Proof/Laws/Rom.lean ====
section
/-! SUPPORT. `ALPHA` and `REV` are exact inverses over 0..63 (10_state.md R19). -/

namespace Sys2Proof.Machine

/-- `REV(ALPHA[v]) = some v` (R19). -/
@[simp] theorem rev_alpha : ∀ v : Sym, rev (alpha v) = some v := by decide +kernel

/-- `REV(c) = some v` implies `ALPHA[v] = c` (R19). -/
theorem alpha_of_rev {c : Byte} {v : Sym} (h : rev c = some v) : alpha v = c := by
  simpa using List.find?_some h

/-- `REV` is `some v` at one byte only: the character of v. -/
theorem rev_eq_some {c : Byte} {v : Sym} : rev c = some v ↔ alpha v = c :=
  ⟨alpha_of_rev, fun h => h ▸ rev_alpha v⟩

end Sys2Proof.Machine
end

