-- ==== Sys2Proof/Laws/Step.lean ====
section
/-! SUPPORT. What a step can be, by the host's next action (10_state.md R29), and what the start of each command
is when the block is faulted. -/

namespace Sys2Proof.Machine

/-- With no host action a step changes nothing (R122). -/
theorem step_idle {s : State} (h : s.host = []) : step s = .next s := by
  simp only [step, takeHostAction, h]

/-- A step takes the host's next action. -/
theorem step_action {s : State} {a : HostAction} {rest : List HostAction} (h : s.host = a :: rest) :
    step s = hostStep a (s.popHost rest) := by
  simp only [step, takeHostAction, h]

/-- A command issued while FAULT = 1 (R111). -/
theorem issueCommand_faulted {t : Transaction} {s : State} (h : s.fault = true) :
    issueCommand t s = .next s.refuseCommand := by
  rw [issueCommand, if_pos h]

/-- An illegal word issued while FAULT = 0 (R109). -/
theorem issueCommand_illegal {t : Transaction} {s : State} {e : Illegal} (h : s.fault = false)
    (hd : decodeCmd t.cmd = .error e) : issueCommand t s = .next (s.raiseFault .illegalCommand) := by
  rw [issueCommand, if_neg (by simp [h]), hd]

/-- A legal word issued while FAULT = 0 (R26). -/
theorem issueCommand_legal {t : Transaction} {s : State} {i : Instr} (h : s.fault = false)
    (hd : decodeCmd t.cmd = .ok i) : issueCommand t s = exec i (s.present t.din) := by
  rw [issueCommand, if_neg (by simp [h]), hd]

/-- A read of an output that has a value (R29). -/
theorem readPort_ok {p : OutPort} {s : State} {r : Reading} (h : hostRead s p = .ok r) :
    readPort p s = .next (s.deliver r) := by
  rw [readPort, h]

/-- A read of an output that has none (R37, R130). -/
theorem readPort_error {p : OutPort} {s : State} {f : Fault} (h : hostRead s p = .error f) :
    readPort p s = .fault f := by
  rw [readPort, h]

/-- Everything a step that ends in a next state can have been. -/
theorem step_cases {s t : State} (h : step s = .next t) :
    (s.host = [] ∧ t = s) ∨
    (∃ p rest, s.host = .reset p :: rest ∧ t = resetBlock (s.popHost rest)) ∨
    (∃ p r rest, s.host = .read p :: rest ∧ hostRead (s.popHost rest) p = .ok r ∧
      t = (s.popHost rest).deliver r) ∨
    (∃ x rest, s.host = .issue x :: rest ∧ s.fault = true ∧ t = (s.popHost rest).refuseCommand) ∨
    (∃ x e rest, s.host = .issue x :: rest ∧ s.fault = false ∧ decodeCmd x.cmd = .error e ∧
      t = (s.popHost rest).raiseFault .illegalCommand) ∨
    (∃ x i rest, s.host = .issue x :: rest ∧ s.fault = false ∧ decodeCmd x.cmd = .ok i ∧
      exec i ((s.popHost rest).present x.din) = .next t) := by
  cases hs : s.host with
  | nil => rw [step_idle hs] at h; cases h; exact .inl ⟨rfl, rfl⟩
  | cons a rest =>
    rw [step_action hs] at h
    refine .inr ?_
    cases a with
    | reset p => cases h; exact .inl ⟨p, rest, rfl, rfl⟩
    | read p =>
      refine .inr (.inl ?_)
      cases hr : hostRead (s.popHost rest) p with
      | ok r => rw [hostStep, readPort_ok hr] at h; cases h; exact ⟨p, r, rest, rfl, hr, rfl⟩
      | error f => rw [hostStep, readPort_error hr] at h; cases h
    | issue x =>
      refine .inr (.inr ?_)
      rw [hostStep] at h
      cases hf : s.fault with
      | true => rw [issueCommand_faulted (by simpa using hf)] at h; cases h; exact .inl ⟨x, rest, rfl, rfl, rfl⟩
      | false =>
        refine .inr ?_
        cases hd : decodeCmd x.cmd with
        | error e =>
          rw [issueCommand_illegal (by simpa using hf) hd] at h
          cases h
          exact .inl ⟨x, e, rest, rfl, rfl, hd, rfl⟩
        | ok i =>
          rw [issueCommand_legal (by simpa using hf) hd] at h
          exact .inr ⟨x, i, rest, rfl, rfl, hd, h⟩

/-- `k + 1` steps are one step and then `k` (10_state.md R30). -/
theorem core_run_succ (k : Nat) (s : State) :
    core.run (k + 1) s =
      match step s with
      | .next t => core.run k t
      | .fault f => .fault f
      | .refused r => .refused r := by
  have h := Host.Core.run.eq_2 core s k
  rw [show core.step s = step s from rfl] at h
  refine Eq.trans h ?_
  cases step s <;> rfl

end Sys2Proof.Machine
end

