-- ==== Sys2Proof/Laws/WellFormed.lean ====
section
/-! SUPPORT. The bounds of the length fields in numbers (30_encoding.md R48), and the fields of a word. -/

namespace Sys2Proof

/-- `MAX_LEN = 4095` (R5). -/
theorem Config.maxLen_eq : Config.maxLen = 4095 := rfl

theorem Instr.wellFormed_encode {n m : Nat} :
    (Instr.encode n m).wellFormed = true ↔ n ≤ 4095 ∧ m ≤ 4095 := by
  simp only [Instr.wellFormed, Bool.and_eq_true, decide_eq_true_iff, ← Config.maxLen_eq]

theorem Instr.wellFormed_decode {n m : Nat} :
    (Instr.decode n m).wellFormed = true ↔ n ≤ 4095 ∧ m ≤ 4095 := by
  simp only [Instr.wellFormed, Bool.and_eq_true, decide_eq_true_iff, ← Config.maxLen_eq]

theorem Instr.wellFormed_parse {n : Nat} : (Instr.parse n).wellFormed = true ↔ n ≤ 4095 := by
  simp only [Instr.wellFormed, decide_eq_true_iff, ← Config.maxLen_eq]

/-- The fields of a word, from its number (R48). -/
theorem fields_of_toNat (w : CmdWord) :
    opField w = w.toNat % 16 ∧ rsvField w = w.toNat / 16 % 16 ∧
      lenInField w = w.toNat / 2 ^ 8 % 2 ^ 12 ∧ lenOutField w = w.toNat / 2 ^ 20 := by
  have hw : w.toNat < 2 ^ 32 := w.isLt
  simp only [opField, rsvField, lenInField, lenOutField, BitVec.extractLsb'_toNat, Nat.shiftRight_eq_div_pow]
  refine ⟨by norm_num, by norm_num, by norm_num, ?_⟩
  exact Nat.mod_eq_of_lt (Nat.div_lt_of_lt_mul (by omega))

end Sys2Proof
end

