-- ==== Sys2Proof/Tests/Slice0.lean ====
section
/-! SUPPORT. Tests against the words and vectors the spec writes out (30_encoding.md R68, R69;
95_test_vectors.md), and for each statement of Certificates/Slice0/Obligations.lean that has hypotheses a
concrete case that meets them (`test_meets_<name of the statement>`). -/

namespace Sys2Proof.Tests

open Sys2Proof Sys2Proof.Machine

/-! ### Small states -/

/-- The block after reset with the given input buffer. -/
def holding (din : List Byte) : State := { State.reset with din := din }

/-- The block after reset; the host issues one command. -/
def issuing (w : CmdWord) (din : List Byte) : State := { State.reset with host := [.issue ⟨w, din⟩] }

/-- The block after a fault BUFFER_SIZE; the host issues one command. -/
def faulted (w : CmdWord) (din : List Byte) : State := (issuing w din).withFault .bufferSize

/-- The block after reset; the host reads an output. -/
def reading (p : OutPort) : State := { State.reset with host := [.read p] }

/-- The next state, if there is one. -/
def nextOf : Host.Outcome State Fault Refusal → Option State
  | .next t => some t
  | _ => none

/-- The answer and the output bytes of the next state, if there is one; a POISON byte is none. -/
def seenAfter (o : Host.Outcome State Fault Refusal) : Option (Answer × List (Option Byte)) :=
  (nextOf o).map fun t => (t.answer, t.doutBytes)

/-- The answer that `step` gives to one issued command after reset. -/
def answers (w : CmdWord) (din : List Byte) : Option (Answer × List (Option Byte)) := seenAfter (step (issuing w din))

/-- A step that ends in a next state. -/
theorem exists_next {o : Host.Outcome State Fault Refusal} {P : State → Bool}
    (h : (nextOf o).any P = true) : ∃ t, o = .next t ∧ P t = true := by
  cases o with
  | next t => exact ⟨t, rfl, h⟩
  | fault f => cases h
  | refused r => cases h

/-! ### WellFormed refuses what no word can hold (R48, R51) -/

theorem test_ill_formed_encode_in : (Instr.encode 4096 0).wellFormed = false := by decide
theorem test_ill_formed_encode_out : (Instr.encode 0 4096).wellFormed = false := by decide
theorem test_ill_formed_decode_in : (Instr.decode 4096 0).wellFormed = false := by decide
theorem test_ill_formed_decode_out : (Instr.decode 0 4096).wellFormed = false := by decide
theorem test_ill_formed_parse : (Instr.parse 4096).wellFormed = false := by decide

/-! ### Decoding: the words of R68 and R69, one for each constructor, and the illegal words of R66 -/

theorem test_decode_enc6 : decodeCmd 0x00000001#32 = .ok .enc6 := by rfl
theorem test_decode_dec8 : decodeCmd 0x00000002#32 = .ok .dec8 := by rfl
theorem test_decode_encode : decodeCmd 0x01601003#32 = .ok (.encode 16 22) := by rfl
theorem test_decode_decode : decodeCmd 0x01001604#32 = .ok (.decode 22 16) := by rfl
theorem test_decode_format : decodeCmd 0x00000005#32 = .ok .format := by rfl
theorem test_decode_parse : decodeCmd 0x00003C06#32 = .ok (.parse 60) := by rfl

/-- Every field bit by bit: LEN_OUT = 000000000100, LEN_IN = 000000000011, RSV = 0000, OP = 0011. -/
theorem test_decode_bits : decodeCmd 0b00000000010000000000001100000011#32 = .ok (.encode 3 4) := by rfl

theorem test_illegal_zero : decodeCmd 0x00000000#32 = .error .reservedOp := by rfl
theorem test_illegal_op7 : decodeCmd 0x00000007#32 = .error .reservedOp := by rfl
theorem test_illegal_opF : decodeCmd 0x0000000F#32 = .error .reservedOp := by rfl
theorem test_illegal_rsv : decodeCmd 0x00000011#32 = .error .reservedBits := by rfl
theorem test_illegal_enc6_out : decodeCmd 0x00100001#32 = .error .unusedLength := by rfl
theorem test_illegal_dec8_in : decodeCmd 0x00000102#32 = .error .unusedLength := by rfl
theorem test_illegal_format_in : decodeCmd 0x00000105#32 = .error .unusedLength := by rfl
theorem test_illegal_parse_out : decodeCmd 0x00103C06#32 = .error .unusedLength := by rfl

theorem test_table_word : decodeTableWord 32 0x00400303 = some (.encode 3 4) := by rfl

theorem test_line_text :
    (AsmLine.instr (.encode 3 4)).lineText (.hex [0x00, 0x10, 0x83]) = "ENCODE 3, 4 ; din = [00 10 83]" := by
  decide

theorem test_line_quoted : (AsmData.quoted "./AB").bytes = some [0x2E, 0x2F, 0x41, 0x42] := by decide

/-- U+00E9 is outside ASCII: it stands for no byte (assumption 21). -/
theorem test_line_not_ascii : asciiByte (Char.ofNat 0x7F) = some 0x7F ∧ asciiByte (Char.ofNat 0xE9) = none := by decide

/-! ### Vectors of 95_test_vectors.md, at most two for each command -/

/-- V-S9: the largest value. -/
theorem test_enc6_63 : answers 0x00000001 [0x3F] = some (.success, [some 0x39]) := by decide

/-- V-S10: one above. -/
theorem test_enc6_64 : answers 0x00000001 [0x40] = some (.fault .operandRange, []) := by decide

/-- V-S27: the largest byte of the alphabet. -/
theorem test_dec8_z : answers 0x00000002 [0x7A] = some (.success, [some 0x35]) := by decide

/-- V-S33: one above; the value byte is POISON and `valid` is 0. -/
theorem test_dec8_brace :
    (nextOf (step (issuing 0x00000002 [0x7B]))).map (fun t => (t.status, t.valid, t.dout)) =
      some (some 1, some false, []) := by
  decide

/-- V-E10: a full group and one trailing byte, `.OGB/.`. -/
theorem test_encode_four :
    answers 0x00600403 [0x01, 0x02, 0x03, 0x04] =
      some (.success, [some 0x2E, some 0x4F, some 0x47, some 0x42, some 0x2F, some 0x2E]) := by
  decide

/-- V-E12: a wrong output length. -/
theorem test_encode_size : answers 0x00100103 [0x00] = some (.fault .bufferSize, []) := by decide

/-- V-D15: `.OGB/E`, not canonical, decodes to 01 02 03 04. -/
theorem test_decode_lenient :
    answers 0x00400604 [0x2E, 0x4F, 0x47, 0x42, 0x2F, 0x45] =
      some (.success, [some 0x01, some 0x02, some 0x03, some 0x04]) := by
  decide

/-- V-D27: the contract check comes before the bad character `?`. -/
theorem test_decode_check_order :
    answers 0x00400504 [0x3F, 0x41, 0x41, 0x41, 0x41] = some (.fault .bufferSize, []) := by
  decide

/-- V-F1: the known record. -/
theorem test_format_known : answers 0x00000005 knownRecord = some (.success, knownText.map some) := by decide

/-- V-F7: three digits are out of range whatever is supported. -/
theorem test_format_100 :
    answers 0x00000005 (0x64 :: List.replicate 39 0) = some (.fault .operandRange, []) := by
  decide

/-- V-P20: byte 28 is `P`; its low bits are ignored. -/
theorem test_parse_lenient : answers 0x00003C06 (knownText.set 28 0x50) = some (.success, knownRecord.map some) := by
  decide +kernel

/-- V-P26: the salt is checked before the digest; all 40 bytes are POISON. -/
theorem test_parse_order :
    answers 0x00003C06 ((knownText.set 10 0x3F).set 40 0x3F) =
      some (.error (.parse .salt), List.replicate 40 none) := by
  decide +kernel

/-- V-D19 under LengthFirst: `?AAAA`. -/
theorem test_length_first : decText .lengthFirst [0x3F, 0x41, 0x41, 0x41, 0x41] = .error .length := by decide

/-- The source's "typical" work factors, with a separator check that reports the work factor (V-P22). -/
def typical : Params where
  wfSupported w := decide (4 ≤ w) && decide (w ≤ 31)
  sepPolicy := .reject .workFactor
  decodeErrOrder := .streamOrder

/-- V-P22 under Reject(PARSE_WORK_FACTOR): byte 6 is `X`. -/
theorem test_reject_separator : parseText typical (knownText.set 6 0x58) = .error .workFactor := by decide

/-- V-P14 and V-P15: `03` is not supported under 4..31 and `31` is. -/
theorem test_typical_work_factors :
    parseWf typical 0x30 0x33 = none ∧ parseWf typical 0x33 0x31 = some 0x1F := by
  decide

/-- Program P3, step 4: `.word 0x00000000` on a faulted block is Refused and keeps FCAUSE. -/
theorem test_refused_keeps_cause :
    (nextOf (step (faulted 0x00000000 []))).map (fun t => (t.answer, t.fault, t.fcause)) =
      some (.refused, true, 2) := by
  decide

/-- Program P3, step 5: reset. -/
theorem test_reset_clears :
    (nextOf (step { faulted 0 [] with host := [.reset none] })).map (fun t => (t.fault, t.fcause, t.answer)) =
      some (false, 0, .noneYet) := by
  decide

/-- A placed command is the one the next step runs. -/
theorem test_placed_command_runs :
    (nextOf (step (State.reset.withFetchWord 32 0x00000001))).map (fun t => t.doutBytes) = some [some 0x2E] := by
  decide

theorem test_reset_memory_wf : State.reset.dout.wf = true := by decide

/-! ### The hypotheses of the statements are met -/

theorem test_meets_DecodeOfEncodedCommand :
    Instr.enc6.wellFormed = true ∧ Instr.dec8.wellFormed = true ∧ Instr.format.wellFormed = true ∧
      (Instr.encode 4095 0).wellFormed = true ∧ (Instr.encode 0 4095).wellFormed = true ∧
      (Instr.decode 4095 0).wellFormed = true ∧ (Instr.decode 0 4095).wellFormed = true ∧
      (Instr.parse 4095).wellFormed = true := by
  decide

theorem test_meets_EncodeOfDecodedWord :
    decodeCmd 0xFFFFFF03#32 = .ok (.encode 4095 4095) ∧ decodeCmd 0x000FFF06#32 = .ok (.parse 4095) := by
  exact ⟨rfl, rfl⟩

/-- V-E17 at the limit of ENCODE.FIT, one above, and the limit of DECODE.FIT. -/
theorem test_meets_FitFormsAssemble :
    (AsmLine.encodeFit 3071).assemble = some 0xFFFBFF03#32 ∧ (AsmLine.encodeFit 3072).assemble = none ∧
      (AsmLine.encodeFit 0).assemble = some 0x00000003#32 ∧ (AsmLine.decodeFit 4095).assemble = some 0xBFFFFF04#32 := by
  decide

theorem test_meets_StepRunsDecodedCommand :
    ∃ (s : State) (w : CmdWord) (din : List Byte) (rest : List HostAction) (i : Instr),
      s.host = .issue ⟨w, din⟩ :: rest ∧ s.fault = false ∧ decodeCmd w = .ok i :=
  ⟨issuing 0x00400303 [0x00, 0x10, 0x83], 0x00400303, [0x00, 0x10, 0x83], [], .encode 3 4, rfl, rfl, rfl⟩

/-- One word for each way to be illegal. -/
theorem test_meets_IllegalWordFaults :
    (issuing 0 []).host = [.issue ⟨0, []⟩] ∧ (issuing 0 []).fault = false ∧
      (0x00000000 : CmdWord).toNat % 16 = 0 ∧ 7 ≤ (0x00000007 : CmdWord).toNat % 16 ∧ (0x00000011 : CmdWord).toNat / 16 % 16 ≠ 0 ∧
      ((0x00100001 : CmdWord).toNat % 16 = 1 ∧ (0x00100001 : CmdWord).toNat / 2 ^ 20 ≠ 0) ∧
      ((0x00000102 : CmdWord).toNat % 16 = 2 ∧ (0x00000102 : CmdWord).toNat / 2 ^ 8 % 2 ^ 12 ≠ 0) ∧
      ((0x00103C06 : CmdWord).toNat % 16 = 6 ∧ (0x00103C06 : CmdWord).toNat / 2 ^ 20 ≠ 0) := by
  decide

theorem test_meets_FaultedBlockRefusesCommand :
    (faulted 1 [0]).host = [.issue ⟨1, [0]⟩] ∧ (faulted 1 [0]).fault = true := by
  decide

theorem test_meets_ResetStepClearsBlock :
    ∃ s : State, s.fault = true ∧ s.host = .reset (some ⟨1, [0]⟩) :: [] :=
  ⟨{ faulted 0 [] with host := [.reset (some ⟨1, [0]⟩)] }, rfl, rfl⟩

/-- The reset state with any host list meets the invariant: the read of FAULT after reset steps on. -/
theorem test_meets_OutputsPoisonBeforeFirstOutcome :
    (reading .fault).Inv ∧ (reading .fault).answer = .noneYet ∧
      (∃ t, step (reading .fault) = .next t) ∧ ∀ x rest, (reading .fault).host ≠ .issue x :: rest := by
  refine ⟨⟨⟨fun _ => rfl, fun h => by cases h⟩, rfl, ?_, by decide, rfl, ⟨rfl, rfl, rfl⟩⟩, rfl, ⟨_, rfl⟩, ?_⟩
  · intro c hc
    cases hc
  · intro x rest h
    cases h

theorem test_meets_FaultRegistersReadAnytime :
    (reading .fault).host = .read .fault :: [] ∧ (reading .fcause).host = .read .fcause :: [] := by
  decide

/-- The same block; the host reads an output next. -/
def thenReads (s : State) (p : OutPort) : State := { s with host := [.read p] }

/-- A defined byte (DEC8 of `9`), a POISON byte (DECODE 5, 3 after its error), and one past the end. -/
theorem test_meets_OutputReadsDeliverOrStop_dout :
    (let s := thenReads (State.reset.withSuccess [0x3F] (some true)) (.dout 0)
     s.host = .read (.dout 0) :: [] ∧ 0 < s.doutLen ∧ s.dout.read 0 = some 0x3F) ∧
      (let s := thenReads (State.reset.withError (.dec .length) 3 none) (.dout 2)
       s.host = .read (.dout 2) :: [] ∧ 2 < s.doutLen ∧ s.dout.read 2 = none) ∧
      (let s := thenReads (State.reset.withError (.dec .length) 3 none) (.dout 3)
       s.host = .read (.dout 3) :: [] ∧ s.doutLen ≤ 3) := by
  decide

/-- A read of `status` after each of the five answers. -/
theorem test_meets_OutputReadsDeliverOrStop_status :
    (∀ s : State, (thenReads s .status).host = .read .status :: []) ∧
      (thenReads (State.reset.withSuccess [0x3F] none) .status).answer = .success ∧
      (thenReads (State.reset.withError (.dec .length) 3 none) .status).answer = .error (.dec .length) ∧
      (thenReads State.reset .status).answer = .noneYet ∧
      (thenReads (State.reset.withFault .bufferSize) .status).answer = .fault .bufferSize ∧
      (thenReads (faulted 0 []).withRefused .status).answer = .refused :=
  ⟨fun _ => rfl, rfl, rfl, rfl, rfl, rfl⟩

/-- `valid` with the value 1, with the value 0, and POISON. -/
theorem test_meets_OutputReadsDeliverOrStop_valid :
    (∀ s : State, (thenReads s .valid).host = .read .valid :: []) ∧
      (thenReads (State.reset.withSuccess [0x3F] (some true)) .valid).valid = some true ∧
      (thenReads (State.reset.withError (.dec .invalidCharacter) 1 (some false)) .valid).valid = some false ∧
      (thenReads State.reset .valid).valid = none :=
  ⟨fun _ => rfl, rfl, rfl, rfl⟩

theorem test_meets_Enc6EncodesOrFaults :
    (holding [0x3F]).fault = false ∧ (holding [0x3F]).din = [0x3F] ∧ (0x3F : Byte).toNat < 64 ∧
      64 ≤ (0x40 : Byte).toNat := by
  decide

theorem test_meets_Dec8DecodesOrRejects :
    (holding [0x7A]).fault = false ∧ (holding [0x7A]).din = [0x7A] ∧ rev 0x7A = some 53#6 ∧ rev 0x7B = none := by
  decide

theorem test_meets_SymbolUnitsAreInverse :
    ∃ t, exec .dec8 (holding [0x39]) = .next t ∧
      (decide (t.answer = .success) && decide (t.dout.read 0 = some 0x3F)) = true :=
  exists_next (by decide)

theorem test_meets_EncodeCommandEffect :
    (holding [1, 2]).fault = false ∧ (holding [1, 2]).din.length = 2 ∧ (3 : Nat) = (4 * 2 + 2) / 3 ∧
      (2 : Nat) ≠ (4 * 2 + 2) / 3 := by
  decide

/-- V-E18 with LEN_OUT = 4095. -/
theorem test_meets_LongEncodeAlwaysFaults :
    decodeCmd 0xFFFC0003#32 = .ok (.encode 3072 4095) ∧ (holding (List.replicate 3072 0)).fault = false ∧
      (holding (List.replicate 3072 0)).din.length = 3072 :=
  ⟨rfl, rfl, List.length_replicate⟩

theorem test_meets_EncodedBytesAreInAlphabet : (0x39 : Byte) ∈ encBytes [0xFF] := by decide

/-- V-D6, and V-D18 for the length error. -/
theorem test_meets_CodecOutputLengths :
    decText .streamOrder [0x39, 0x75] = .ok [0xFF] ∧
      decText .streamOrder [0x41, 0x41, 0x41, 0x41, 0x3F] = .error .length := by
  decide

theorem test_meets_DecodeUnpacksBitsMsbFirst :
    decText .lengthFirst [0x2E, 0x2F, 0x41, 0x42] = .ok [0x00, 0x10, 0x83] ∧
      decText .streamOrder [0x39, 0x39] = .ok [0xFF] := by
  decide

/-- V-D6, V-D22 and a wrong output length. -/
theorem test_meets_DecodeCommandEffect :
    ((holding [0x39, 0x75]).fault = false ∧ (holding [0x39, 0x75]).din.length = 2 ∧ (1 : Nat) = 3 * 2 / 4 ∧
        decText .streamOrder (holding [0x39, 0x75]).din = .ok [0xFF]) ∧
      decText .streamOrder (holding [0x3F, 0x41]).din = .error .invalidCharacter ∧ (2 : Nat) ≠ 3 * 2 / 4 := by
  decide

/-- V-D19, V-D18 and V-D6: a bad character first, the length, success. -/
theorem test_meets_DecodeAnswerFromCharacters :
    decText .streamOrder [0x3F, 0x41, 0x41, 0x41, 0x41] = .error .invalidCharacter ∧
      decText .streamOrder [0x41, 0x41, 0x41, 0x41, 0x3F] = .error .length ∧
      decText .streamOrder [0x39, 0x75] = .ok [0xFF] := by
  decide

theorem test_meets_DecodeErrorOrdersCompared :
    [0x3F, 0x41, 0x41, 0x41, (0x41 : Byte)].length % 4 = 1 ∧ [0x39, (0x75 : Byte)].length % 4 ≠ 1 ∧
      decText .lengthFirst [0x3F, 0x41, 0x41, 0x41, 0x41] ≠ decText .streamOrder [0x3F, 0x41, 0x41, 0x41, 0x41] := by
  decide

theorem test_meets_DecodeUndoesEncode :
    State.reset.fault = false ∧ (List.replicate 3071 (0xFF : Byte)).length ≤ 3071 :=
  ⟨rfl, List.length_replicate.le⟩

theorem test_meets_EmptyInputCodes : (holding []).fault = false ∧ (holding []).din = [] := by decide

/-- V-D3 and V-D4: `O` and `P` agree in the bits that are kept. -/
theorem test_meets_DiscardedBitsAreIgnored :
    rev 0x4F = some 16#6 ∧ rev 0x50 = some 17#6 ∧ keptBits 2 16#6 = keptBits 2 17#6 ∧
      decText .streamOrder ([0x2E] ++ [0x4F]) = .ok [0x01] ∧ decText .streamOrder ([0x2E] ++ [0x50]) = .ok [0x01] ∧
      (rev 0x3F = none ∧ ([0x41].length + 1) % 4 ≠ 1) := by
  decide

/-- V-D7, V-D11 and V-D12: lengths 2, 3 and 0 modulo 4. -/
theorem test_meets_DecodeClassSizes :
    decText .streamOrder [0x39, 0x39] = .ok [0xFF] ∧ decText .streamOrder [0x39, 0x39, 0x39] = .ok [0xFF, 0xFF] ∧
      decText .streamOrder [0x39, 0x39, 0x39, 0x39] = .ok [0xFF, 0xFF, 0xFF] := by
  decide

/-- V-D6 is canonical, V-D7 is not. -/
theorem test_meets_ReencodingCanonicalises :
    CanonicalText [0x39, 0x75] ∧ decText .streamOrder [0x39, 0x39] = .ok [0xFF] ∧ ¬ CanonicalText [0x39, 0x39] :=
  ⟨⟨⟨[0xFF], by decide⟩, by decide⟩, by decide,
    fun h => absurd h.2 (by decide)⟩

/-- A record with work factor 4, and one with work factor 100. -/
theorem test_meets_FormatCommandEffect :
    (⟨4, List.replicate 16 0, List.replicate 23 0⟩ : Record).Sized ∧
      (holding (recordBytes ⟨4, List.replicate 16 0, List.replicate 23 0⟩)).fault = false ∧
      ((4 : Byte).toNat ≤ 99 ∧ Config.wfSupported (4 : Byte).toNat = true) ∧ 99 < (100 : Byte).toNat := by
  decide

theorem test_meets_FormattedTextLayout :
    (⟨99, List.replicate 16 0xFF, List.replicate 23 0xFF⟩ : Record).Sized ∧ (99 : Byte).toNat ≤ 99 := by
  decide

theorem test_meets_ParseCommandSucceeds :
    (holding knownText).fault = false ∧ (holding knownText).din.length = 60 ∧
      slice knownText 0 4 = [0x24, 0x32, 0x62, 0x24] ∧ knownText[4]? = some 0x30 ∧ knownText[5]? = some 0x34 ∧
      Config.wfSupported (10 * ((0x30 : Byte).toNat - 0x30) + ((0x34 : Byte).toNat - 0x30)) = true ∧
      decText .streamOrder (slice knownText 7 29) = .ok (slice knownRecord 1 17) ∧
      decText .streamOrder (slice knownText 29 60) = .ok (slice knownRecord 17 40) := by
  decide

/-- V-P6 and V-P4: the length and the first four bytes. -/
theorem test_meets_ParseFirstFailureIsReported :
    (holding (knownText.take 59)).din.length = 59 ∧ (holding (knownText.set 2 0x78)).din.length = 60 ∧
      slice (knownText.set 2 0x78) 0 4 ∉
        [[0x24, 0x32, 0x61, 0x24], [0x24, 0x32, 0x62, 0x24], [0x24, 0x32, 0x79, 0x24]] := by
  decide

/-- The work-factor condition of the statement, on bytes 4 and 5 of a text. -/
def wfHolds (t : List Byte) : Prop :=
  ∃ d0 d1 : Byte, t[4]? = some d0 ∧ t[5]? = some d1 ∧ 0x30 ≤ d0.toNat ∧ d0.toNat ≤ 0x39 ∧ 0x30 ≤ d1.toNat ∧
    d1.toNat ≤ 0x39 ∧ Config.wfSupported (10 * (d0.toNat - 0x30) + (d1.toNat - 0x30)) = true

/-- V-P12: the header holds and `+4` is no work factor. -/
theorem test_meets_ParseFirstFailure_workFactor :
    slice (knownText.set 4 0x2B) 0 4 = [0x24, 0x32, 0x62, 0x24] ∧ ¬ wfHolds (knownText.set 4 0x2B) := by
  refine ⟨by decide, ?_⟩
  rintro ⟨d0, d1, h0, -, h, -⟩
  have h4 : (knownText.set 4 0x2B)[4]? = some 0x2B := by decide
  rw [h4] at h0
  cases h0
  exact absurd h (by decide)

/-- V-P17: header and work factor hold, and byte 28 is `$`. -/
theorem test_meets_ParseFirstFailure_salt :
    slice (knownText.set 28 0x24) 0 4 = [0x24, 0x32, 0x62, 0x24] ∧ wfHolds (knownText.set 28 0x24) ∧
      ¬ ∀ c ∈ slice (knownText.set 28 0x24) 7 29, inAlphabet c = true :=
  ⟨by decide, ⟨0x30, 0x34, by decide⟩, by decide⟩

/-- V-P19: all but the last byte hold, which is `=`; and V-P1: everything holds. -/
theorem test_meets_ParseFirstFailure_hash :
    (slice (knownText.set 59 0x3D) 0 4 = [0x24, 0x32, 0x62, 0x24] ∧ wfHolds (knownText.set 59 0x3D) ∧
        (∀ c ∈ slice (knownText.set 59 0x3D) 7 29, inAlphabet c = true) ∧
        ¬ ∀ c ∈ slice (knownText.set 59 0x3D) 29 60, inAlphabet c = true) ∧
      (slice knownText 0 4 = [0x24, 0x32, 0x62, 0x24] ∧ wfHolds knownText ∧
        (∀ c ∈ slice knownText 7 29, inAlphabet c = true) ∧ ∀ c ∈ slice knownText 29 60, inAlphabet c = true) :=
  ⟨⟨by decide, ⟨0x30, 0x34, by decide⟩, by decide, by decide⟩, by decide, ⟨0x30, 0x34, by decide⟩, by decide,
    by decide⟩

theorem test_meets_SeparatorPolicyOnByteSix :
    knownText.length = 60 ∧ Config.params.sepPolicy = .ignore ∧ typical.sepPolicy = .reject .workFactor ∧
      (knownText.set 6 0x58)[6]? ≠ some 0x24 ∧ slice (knownText.set 6 0x58) 0 4 ∈ acceptedHeaders ∧
      parseWf typical ((knownText.set 6 0x58).getD 4 0) ((knownText.set 6 0x58).getD 5 0) = some 4 ∧
      knownText[6]? = some 0x24 ∧ (knownText.set 2 0x78).length = 60 ∧
      slice (knownText.set 2 0x78) 0 4 ∉ acceptedHeaders ∧
      parseWf typical ((knownText.set 5 0x33).getD 4 0) ((knownText.set 5 0x33).getD 5 0) = none := by
  decide

theorem test_meets_AcceptedHeadersAreEquivalent :
    (knownText.drop 4).length = 56 ∧
      [0x24, 0x32, 0x61, (0x24 : Byte)] ∈ acceptedHeaders ∧ [0x24, 0x32, 0x79, (0x24 : Byte)] ∈ acceptedHeaders := by
  decide

theorem test_meets_FormatOfParsedRecord :
    typical.Admissible ∧
      parseText typical knownText = .ok ⟨4, slice knownRecord 1 17, slice knownRecord 17 40⟩ := by
  refine ⟨⟨by decide, fun w h => ?_⟩, by decide⟩
  simp only [typical, Bool.and_eq_false_iff, decide_eq_false_iff_not]
  omega

/-- The same for the command. -/
theorem test_meets_FormatOfParsedRecord_command :
    ∃ t, exec (.parse 60) (holding knownText) = .next t ∧ decide (t.answer = .success) = true :=
  exists_next (by decide +kernel)

/-- The largest work factor of the typical set, and 4 for the hardware's own. -/
theorem test_meets_ParseOfFormattedRecord :
    typical.Admissible ∧ (⟨31, List.replicate 16 0, List.replicate 23 0⟩ : Record).Sized ∧
      typical.wfSupported (31 : Byte).toNat = true ∧ Config.wfSupported (4 : Byte).toNat = true ∧
      State.reset.fault = false :=
  ⟨test_meets_FormatOfParsedRecord.1, by decide, by decide, by decide, rfl⟩

theorem test_meets_KnownVectorRoundTrips : State.reset.fault = false := by decide

/-- A command that faults and one that does not. -/
theorem test_meets_CommandFrame :
    (∃ t, exec .enc6 (holding [0x40]) = .next t ∧ decide (t.answer = .fault .operandRange) = true) ∧
      ∃ t, exec .enc6 (holding [0x3F]) = .next t ∧ decide (t.answer = .success) = true :=
  ⟨exists_next (by decide), exists_next (by decide)⟩

/-- After the error the host issues a legal word. -/
theorem test_meets_ErrorKeepsRegisters :
    (∃ t, step { State.reset with host := [.issue ⟨2, [0x7B]⟩, .issue ⟨2, [0x7A]⟩] } = .next t ∧
      decide (t.answer = .error (.dec .invalidCharacter) ∧ t.host = .issue ⟨2, [0x7A]⟩ :: []) = true) ∧
      decodeCmd 0x00000002#32 = .ok .dec8 :=
  ⟨exists_next (by decide), rfl⟩

/-- After the error the host issues an illegal word. -/
theorem test_meets_ErrorKeepsRegisters_illegal :
    (∃ t, step { State.reset with host := [.issue ⟨2, [0x7B]⟩, .issue ⟨0, []⟩] } = .next t ∧
      decide (t.answer = .error (.dec .invalidCharacter) ∧ t.host = .issue ⟨0, []⟩ :: []) = true) ∧
      decodeCmd 0x00000000#32 = .error .reservedOp :=
  ⟨exists_next (by decide), rfl⟩

theorem test_meets_SuccessDefinesEveryByte :
    ∃ t, exec (.encode 1 2) (holding [0xFF]) = .next t ∧ decide (t.answer = .success ∧ 1 < lOut (.encode 1 2)) = true :=
  exists_next (by decide)

/-- V-D24: the good first group is POISON too. -/
theorem test_meets_ErrorPoisonsEveryByte :
    ∃ t, exec (.decode 8 6) (holding [0x41, 0x41, 0x41, 0x41, 0x41, 0x41, 0x3D, 0x41]) = .next t ∧
      decide (t.answer = .error (.dec .invalidCharacter)) = true :=
  exists_next (by decide)

/-- One status for each command. -/
theorem test_meets_StatusCodesByCommand :
    (nextOf (exec .enc6 (holding [0]))).bind State.status = some 0 ∧
      (nextOf (exec .dec8 (holding [0]))).bind State.status = some 1 ∧
      (nextOf (exec (.encode 0 0) (holding []))).bind State.status = some 0 ∧
      (nextOf (exec (.decode 1 0) (holding [0x2E]))).bind State.status = some 2 ∧
      (nextOf (exec .format (holding knownRecord))).bind State.status = some 0 ∧
      (nextOf (exec (.parse 0) (holding []))).bind State.status = some 3 := by
  decide

/-- Each clause: a faulted block, an illegal word, V-D27, and V-D18. -/
theorem test_meets_ChecksInOrder :
    (faulted 0 []).fault = true ∧ decodeCmd 0x00000011#32 = .error .reservedBits ∧
      (decodeCmd 0x00400504#32 = .ok (.decode 5 4) ∧
        contractCause (.decode 5 4) [0x3F, 0x41, 0x41, 0x41, 0x41] = some .bufferSize) ∧
      (decodeCmd 0x00300504#32 = .ok (.decode 5 3) ∧
        contractCause (.decode 5 3) [0x41, 0x41, 0x41, 0x41, 0x3F] = none) :=
  ⟨rfl, rfl, ⟨rfl, by decide⟩, rfl, by decide⟩

/-- Another number of bytes than L_in(cmd). -/
theorem test_meets_CommandsStayInsideBuffers :
    (holding []).fault = false ∧ (holding []).din.length ≠ lIn .enc6 := by decide

/-- Two states that agree in FAULT and DIN and in nothing else. -/
theorem test_meets_OutcomeDependsOnOperandsOnly :
    (holding [0x3F]).fault = { issuing 0 [] with din := [0x3F], doutLen := 5 }.fault ∧
      (holding [0x3F]).din = { issuing 0 [] with din := [0x3F], doutLen := 5 }.din ∧
      ∃ t, exec .enc6 (holding [0x3F]) = .next t ∧ decide (t.answer = .success) = true :=
  ⟨rfl, rfl, exists_next (by decide)⟩

theorem test_meets_RepeatedCommandSameOutcome :
    ∃ t, step { State.reset with host := [.issue ⟨2, [0x7B]⟩, .issue ⟨2, [0x7B]⟩] } = .next t ∧
      decide (t.fault = false) = true :=
  exists_next (by decide)

/-- Fault entry, reset, and a refused command. -/
theorem test_meets_FaultSetByEntryClearedByReset :
    (∃ t, step (issuing 0 []) = .next t ∧ decide ((issuing 0 []).fault = false ∧ t.fault = true) = true) ∧
      (∃ t, step { faulted 0 [] with host := [.reset none] } = .next t ∧ decide (t.fault = false) = true) ∧
      ∃ t, step (faulted 0 []) = .next t ∧ decide ((faulted 0 []).fault = true ∧ t.fault = true) = true :=
  ⟨exists_next (by decide), exists_next (by decide), exists_next (by decide)⟩

/-- Two commands on a faulted block. -/
theorem test_meets_FaultedRunIsRefused :
    ∃ s t : State, s.fault = true ∧ resetFree s.host = true ∧ core.run 2 s = .next t ∧
      outcomesOf 2 s = [.refused, .refused] :=
  ⟨{ faulted 0 [] with host := [.issue ⟨1, [0]⟩, .issue ⟨0, []⟩] }, _, rfl, rfl,
    (core_run_succ _ _).trans (core_run_succ _ _), by decide⟩

/-- The invariant's state steps on: reset, with a command issued. -/
theorem test_meets_StepKeepsInv : (issuing 1 [0x3F]).Inv ∧ ∃ t, step (issuing 1 [0x3F]) = .next t := by
  refine ⟨⟨⟨fun _ => rfl, fun h => by cases h⟩, rfl, ?_, by decide, rfl, ⟨rfl, rfl, rfl⟩⟩, ?_⟩
  · intro c hc
    cases hc
  · obtain ⟨t, ht, -⟩ := exists_next (o := step (issuing 1 [0x3F])) (P := fun _ => true) (by decide)
    exact ⟨t, ht⟩

/-- Instance 0 of two takes a command. -/
theorem test_meets_InstancesAreIndependent :
    ∃ new, stepInstance 0 [reading .fault, faulted 0 []] = .next new ∧
      ([reading .fault] : List State)[0]? = [reading .fault, faulted 0 []][0]? :=
  ⟨_, rfl, rfl⟩

end Sys2Proof.Tests
end

/-! The state and the commands: what every command ends with, what every step keeps (10_state.md). -/

namespace Sys2Proof.Machine

/-! ### The group codec: lengths (R79) and round trip (R83) -/

theorem encBytes_length (b : List Byte) : (encBytes b).length = encLen b.length := by
  induction b using encBytes.induct with
  | case1 x y z rest ih =>
    simp only [encBytes, encGroup3, encLen, List.length_append, List.length_cons, List.length_nil] at ih ⊢
    omega
  | case2 x y => simp [encBytes, encGroup2, encLen]
  | case3 x => simp [encBytes, encGroup1, encLen]
  | case4 => simp [encBytes, encLen]

theorem decGroups_length {t b : List Byte} (h : decGroups t = .ok b) : b.length = decLen t.length := by
  induction t using decGroups.induct generalizing b with
  | case1 c0 c1 c2 c3 rest v0 v1 v2 v3 h3 h2 h1 h0 bs hbs ih =>
    simp only [decGroups, h0, h1, h2, h3, hbs] at h
    cases h
    have hlen := ih hbs
    simp only [decGroup4, decLen, List.length_append, List.length_cons, List.length_nil] at hlen ⊢
    omega
  | case4 c0 c1 c2 v0 v1 v2 h2 h1 h0 =>
    simp only [decGroups, h0, h1, h2] at h
    cases h
    simp [decGroup3, decLen]
  | case6 c0 c1 v0 v1 h1 h0 =>
    simp only [decGroups, h0, h1] at h
    cases h
    simp [decGroup2, decLen]
  | case9 => cases h; rfl
  -- In the other cases the text does not decode.
  | case2 | case3 | case5 | case7 | case8 => simp_all [decGroups]

theorem decText_length {o : DecodeErrOrder} {t b : List Byte} (h : decText o t = .ok b) :
    b.length = decLen t.length := by
  unfold decText at h
  split at h
  · cases h
  · exact decGroups_length h

/-! A byte put together from the symbols it was cut into is the byte itself (R60). -/

@[simp] theorem byte0_sym0 (x : Byte) (low : BitVec 4) : byte0 (sym0 x) (x.extractLsb' 0 2 ++ low) = x := by
  rw [byte0, BitVec.extractLsb'_append_eq_left]
  exact BitVec.extractLsb'_append_extractLsb' (w := 6) (len := 2)

@[simp] theorem byte1_halves (y : Byte) (high low : BitVec 2) :
    byte1 (high ++ y.extractLsb' 4 4) (y.extractLsb' 0 4 ++ low) = y := by
  rw [byte1, BitVec.extractLsb'_append_eq_right, BitVec.extractLsb'_append_eq_left]
  exact BitVec.extractLsb'_append_extractLsb' (w := 4) (len := 4)

@[simp] theorem byte2_sym3 (z : Byte) (high : BitVec 4) : byte2 (high ++ z.extractLsb' 6 2) (sym3 z) = z := by
  rw [byte2, BitVec.extractLsb'_append_eq_right]
  exact BitVec.extractLsb'_append_extractLsb' (w := 2) (len := 6)

theorem decGroups_encBytes (b : List Byte) : decGroups (encBytes b) = .ok b := by
  induction b using encBytes.induct with
  | case1 x y z rest ih => simp [encBytes, encGroup3, decGroups, ih, decGroup4, sym1, sym2]
  | case2 x y => simp [encBytes, encGroup2, decGroups, decGroup3, sym1]
  | case3 x => simp [encBytes, encGroup1, decGroups, decGroup2]
  | case4 => simp [encBytes, decGroups]

/-- No encoding has a length of 1 modulo 4, so the error order takes no part (R78). -/
theorem decText_encBytes (o : DecodeErrOrder) (b : List Byte) : decText o (encBytes b) = .ok b := by
  have hlen : (encBytes b).length % 4 ≠ 1 := by
    rw [encBytes_length, encLen]
    omega
  rw [decText, if_neg fun h => hlen h.2, decGroups_encBytes]

/-! ### The bytes of a record (R63, R89) -/

theorem recordBytes_length {r : Record} (h : r.Sized) : (recordBytes r).length = 40 := by
  simp [recordBytes, h.1, h.2]

theorem formatText_length {r : Record} (h : r.Sized) : (formatText r).length = 60 := by
  simp [formatText, header2b, wfText, encBytes_length, h.1, h.2, encLen]

/-- Any 40 bytes are those of one record (R52). -/
theorem exists_record_of_length {din : List Byte} (h : din.length = 40) :
    ∃ r : Record, r.Sized ∧ din = recordBytes r := by
  cases din with
  | nil => cases h
  | cons wf rest =>
    refine ⟨⟨wf, rest.take 16, rest.drop 16⟩, ⟨?_, ?_⟩, ?_⟩
    all_goals simp_all [recordBytes]

/-- A text that parses has passed every step of R94. -/
theorem steps_of_parseText {p : Params} {t : List Byte} {r : Record} (h : parseText p t = .ok r) :
    t.length = 60 ∧ slice t 0 4 ∈ acceptedHeaders ∧ parseWf p (t.getD 4 0) (t.getD 5 0) = some r.wf ∧
      sepError p.sepPolicy t[6]? = none ∧ decText p.decodeErrOrder (slice t 7 29) = .ok r.salt ∧
      decText p.decodeErrOrder (slice t 29 60) = .ok r.digest := by
  unfold parseText at h
  split at h
  · cases h
  next hlen =>
  split at h
  · cases h
  next hheader =>
  split at h
  · cases h
  next hwf =>
  split at h
  · cases h
  next hsep =>
  split at h
  · cases h
  next hsalt =>
  split at h
  · cases h
  next hdigest =>
  cases h
  exact ⟨not_not.1 hlen, not_not.1 hheader, hwf, hsep, hsalt, hdigest⟩

theorem slice_length {α : Type} {l : List α} {i j : Nat} (h : j ≤ l.length) : (slice l i j).length = j - i := by
  rw [slice, List.length_take, List.length_drop]
  omega

/-- The fields of a text that parses are 22 and 31 characters, so the record has its sizes (R94). -/
theorem sized_of_parseText {p : Params} {t : List Byte} {r : Record} (h : parseText p t = .ok r) : r.Sized := by
  obtain ⟨hlen, -, -, -, hsalt, hdigest⟩ := steps_of_parseText h
  have hs := decText_length hsalt
  have hd := decText_length hdigest
  rw [slice_length (by omega)] at hs hd
  exact ⟨hs, hd⟩

/-! ### What each command does (R70, R71, R80, R81, R93, R94)

An effect is an equation between states. DIN is given by a hypothesis `s.din = …`, so the equation applies to any
state that presents those bytes. -/

section Effects

/-- A command that reads all of DIN reads what the host presented. -/
theorem memReadRange_openDout {s : State} {n k : Nat} (h : s.din.length = n) :
    memReadRange (s.openDout k) 0 n = .ok s.din :=
  memReadRange_all (s := s.openDout k) h

/-- Bytes that fill DOUT, and then Success. -/
theorem memWriteFrom_succeed (s : State) {n : Nat} {b : List Byte} (h : b.length = n) (v : Option Bool) :
    (do let u ← memWriteFrom (s.openDout n) 0 b; return u.succeed v) = .ok (s.withSuccess b v) := by
  rw [memWriteFrom_open h]
  subst h
  rfl

variable {s : State} (hf : s.fault = false)
include hf

theorem exec_enc6_success {x : Byte} (hd : s.din = [x]) (hx : x.toNat < 64) :
    exec .enc6 s = .next (s.withSuccess [alpha (BitVec.ofNat 6 x.toNat)] none) := by
  have hhigh : x.extractLsb' 6 2 = 0#2 := by
    simp only [BitVec.toNat_eq, BitVec.extractLsb'_toNat, BitVec.toNat_ofNat, Nat.shiftRight_eq_div_pow]
    omega
  rw [exec, execEnc6, takeCommand_run hf (by simp [hd, lIn]), memRead_eq (b := x) (by simp [hd])]
  simp only [hhigh, bind, Except.bind]
  exact congrArg toOutcome (memWriteFrom_succeed s (b := [_]) rfl none)

theorem exec_enc6_fault {x : Byte} (hd : s.din = [x]) (hx : 64 ≤ x.toNat) :
    exec .enc6 s = .next (s.withFault .operandRange) := by
  have hhigh : x.extractLsb' 6 2 ≠ 0#2 := by
    simp only [ne_eq, BitVec.toNat_eq, BitVec.extractLsb'_toNat, BitVec.toNat_ofNat, Nat.shiftRight_eq_div_pow]
    omega
  rw [exec, execEnc6, takeCommand_run hf (by simp [hd, lIn]), memRead_eq (b := x) (by simp [hd])]
  simp only [bind, Except.bind, if_pos hhigh]
  rfl

theorem exec_dec8_success {c : Byte} {v : Sym} (hd : s.din = [c]) (hv : rev c = some v) :
    exec .dec8 s = .next (s.withSuccess [symByte v] (some true)) := by
  rw [exec, execDec8, takeCommand_run hf (by simp [hd, lIn]), memRead_eq (b := c) (by simp [hd])]
  simp only [bind, Except.bind, hv]
  exact congrArg toOutcome (memWriteFrom_succeed s (b := [_]) rfl _)

theorem exec_dec8_error {c : Byte} (hd : s.din = [c]) (hv : rev c = none) :
    exec .dec8 s = .next (s.withError (.dec .invalidCharacter) 1 (some false)) := by
  rw [exec, execDec8, takeCommand_run hf (by simp [hd, lIn]), memRead_eq (b := c) (by simp [hd])]
  simp only [bind, Except.bind, hv]
  rfl

theorem exec_encode_success {n m : Nat} (hl : s.din.length = n) (hm : m = encLen n) :
    exec (.encode n m) s = .next (s.withSuccess (encBytes s.din) none) := by
  have hb : (encBytes s.din).length = m := by rw [encBytes_length, hl, hm]
  rw [exec, execEncode, takeCommand_run (i := (.encode n m)) hf hl, if_neg (not_not.2 hm), memReadRange_openDout hl]
  exact congrArg toOutcome (memWriteFrom_succeed s hb none)

theorem exec_encode_fault {n m : Nat} (hl : s.din.length = n) (hm : m ≠ encLen n) :
    exec (.encode n m) s = .next (s.withFault .bufferSize) := by
  rw [exec, execEncode, takeCommand_run (i := (.encode n m)) hf hl, if_pos hm]
  rfl

theorem exec_decode_success {n m : Nat} {b : List Byte} (hl : s.din.length = n) (hm : m = decLen n)
    (hb : decText .streamOrder s.din = .ok b) : exec (.decode n m) s = .next (s.withSuccess b none) := by
  have hlen : b.length = m := by rw [decText_length hb, hl, hm]
  rw [exec, execDecode, takeCommand_run (i := (.decode n m)) hf hl, if_neg (not_not.2 hm), memReadRange_openDout hl]
  simp only [bind, Except.bind, Config.params, hb]
  exact congrArg toOutcome (memWriteFrom_succeed s hlen none)

theorem exec_decode_error {n m : Nat} {e : DecodeError} (hl : s.din.length = n) (hm : m = decLen n)
    (he : decText .streamOrder s.din = .error e) : exec (.decode n m) s = .next (s.withError (.dec e) m none) := by
  rw [exec, execDecode, takeCommand_run (i := (.decode n m)) hf hl, if_neg (not_not.2 hm), memReadRange_openDout hl]
  simp only [bind, Except.bind, Config.params, he]
  rfl

theorem exec_decode_fault {n m : Nat} (hl : s.din.length = n) (hm : m ≠ decLen n) :
    exec (.decode n m) s = .next (s.withFault .bufferSize) := by
  rw [exec, execDecode, takeCommand_run (i := (.decode n m)) hf hl, if_pos hm]
  rfl

theorem exec_parse_success {n : Nat} {r : Record} (hl : s.din.length = n)
    (hr : parseText Config.params s.din = .ok r) :
    exec (.parse n) s = .next (s.withSuccess (recordBytes r) none) := by
  rw [exec, execParse, takeCommand_run (i := (.parse n)) hf hl, memReadRange_openDout hl]
  simp only [bind, Except.bind, hr]
  exact congrArg toOutcome (memWriteFrom_succeed s (recordBytes_length (sized_of_parseText hr)) none)

theorem exec_parse_error {n : Nat} {k : ParseError} (hl : s.din.length = n)
    (hk : parseText Config.params s.din = .error k) :
    exec (.parse n) s = .next (s.withError (.parse k) 40 none) := by
  rw [exec, execParse, takeCommand_run (i := (.parse n)) hf hl, memReadRange_openDout hl]
  simp only [bind, Except.bind, hk]
  rfl

/-- FORMAT has read its record when it comes to the contract check on the work factor (R93). -/
theorem exec_format_eq {r : Record} (hr : r.Sized) (hd : s.din = recordBytes r) :
    exec .format s =
      if wfLegal Config.params r.wf then .next (s.withSuccess (formatText r) none)
      else .next (s.withFault .operandRange) := by
  have hl : s.din.length = 40 := by rw [hd, recordBytes_length hr]
  have hwf : memRead (s.openDout 60) 0 = .ok r.wf := memRead_eq (by simp [hd, recordBytes])
  have hsalt : memReadRange (s.openDout 60) 1 16 = .ok r.salt := by
    rw [memReadRange_eq _ _ _ (by simp [hl])]
    simp [hd, recordBytes, ← hr.1]
  have hdigest : memReadRange (s.openDout 60) 17 23 = .ok r.digest := by
    rw [memReadRange_eq _ _ _ (by simp [hl])]
    simp [hd, recordBytes, ← hr.1, ← hr.2]
  rw [exec, execFormat, takeCommand_run (i := .format) hf hl]
  simp only [lOut, hwf, hsalt, hdigest, bind, Except.bind]
  split
  · exact congrArg toOutcome (memWriteFrom_succeed s (formatText_length hr) none)
  · rfl

end Effects

/-! ### How a command ends

The three ways a command ends that is taken with `L_in(cmd)` bytes (R26). What it ends with is a function of
the command and of DIN alone (R25, R43), so every rule about commands follows from `exec_ending` and `exec_next`. -/

/-- What a command ends with, apart from the state it started in. -/
inductive Ending where
  | success (bytes : List Byte) (valid : Option Bool)
  | error (k : ErrorKind) (valid : Option Bool)
  | fault (c : Cause)

/-- The state after the ending of a command with `len` output bytes. -/
def Ending.after (len : Nat) (s : State) : Ending → State
  | .success b valid => s.withSuccess b valid
  | .error k valid => s.withError k len valid
  | .fault c => s.withFault c

/-- Success defines all `len` bytes of DOUT (R36). -/
def Ending.Fills (len : Nat) : Ending → Prop
  | .success b _ => b.length = len
  | _ => True

/-- On DIN = `din` the command ends with `e`, whatever else the unfaulted block holds. -/
def Ends (i : Instr) (din : List Byte) (e : Ending) : Prop :=
  e.Fills (lOut i) ∧ ∀ s : State, s.fault = false → s.din = din → exec i s = .next (e.after (lOut i) s)

theorem enc6_ends (x : Byte) : ∃ e, Ends .enc6 [x] e := by
  by_cases hx : x.toNat < 64
  · exact ⟨.success [_] none, rfl, fun s hf hd => exec_enc6_success hf hd hx⟩
  · exact ⟨.fault .operandRange, trivial, fun s hf hd => exec_enc6_fault hf hd (not_lt.1 hx)⟩

theorem dec8_ends (c : Byte) : ∃ e, Ends .dec8 [c] e := by
  cases hv : rev c with
  | some v => exact ⟨.success [_] (some true), rfl, fun s hf hd => exec_dec8_success hf hd hv⟩
  | none => exact ⟨.error _ (some false), trivial, fun s hf hd => exec_dec8_error hf hd hv⟩

theorem encode_ends {n : Nat} (m : Nat) {din : List Byte} (h : din.length = n) : ∃ e, Ends (.encode n m) din e := by
  by_cases hm : m = encLen n
  · refine ⟨.success (encBytes din) none, ?_, ?_⟩
    · rw [Ending.Fills, encBytes_length, h, lOut, hm]
    · rintro s hf rfl
      exact exec_encode_success hf h hm
  · exact ⟨.fault .bufferSize, trivial, fun s hf hd => exec_encode_fault hf (hd ▸ h) hm⟩

theorem decode_ends {n : Nat} (m : Nat) {din : List Byte} (h : din.length = n) : ∃ e, Ends (.decode n m) din e := by
  by_cases hm : m = decLen n
  · cases hb : decText .streamOrder din with
    | ok b =>
      refine ⟨.success b none, ?_, ?_⟩
      · rw [Ending.Fills, decText_length hb, h, lOut, hm]
      · rintro s hf rfl
        exact exec_decode_success hf h hm hb
    | error e =>
      refine ⟨.error (.dec e) none, trivial, ?_⟩
      rintro s hf rfl
      exact exec_decode_error hf h hm hb
  · exact ⟨.fault .bufferSize, trivial, fun s hf hd => exec_decode_fault hf (hd ▸ h) hm⟩

theorem format_ends {din : List Byte} (h : din.length = 40) : ∃ e, Ends .format din e := by
  obtain ⟨r, hr, rfl⟩ := exists_record_of_length h
  cases hw : wfLegal Config.params r.wf with
  | true => exact ⟨.success (formatText r) none, formatText_length hr, fun s hf hd => by
      rw [exec_format_eq hf hr hd, if_pos hw]; rfl⟩
  | false => exact ⟨.fault .operandRange, trivial, fun s hf hd => by
      rw [exec_format_eq hf hr hd, if_neg (Bool.eq_false_iff.1 hw)]; rfl⟩

theorem parse_ends {n : Nat} {din : List Byte} (h : din.length = n) : ∃ e, Ends (.parse n) din e := by
  cases hr : parseText Config.params din with
  | ok r =>
    refine ⟨.success (recordBytes r) none, recordBytes_length (sized_of_parseText hr), ?_⟩
    rintro s hf rfl
    exact exec_parse_success hf h hr
  | error k =>
    refine ⟨.error (.parse k) none, trivial, ?_⟩
    rintro s hf rfl
    exact exec_parse_error hf h hr

theorem exec_ending {i : Instr} {din : List Byte} (h : din.length = lIn i) : ∃ e, Ends i din e := by
  cases i with
  | enc6 => obtain ⟨x, rfl⟩ := List.length_eq_one_iff.1 h; exact enc6_ends x
  | dec8 => obtain ⟨c, rfl⟩ := List.length_eq_one_iff.1 h; exact dec8_ends c
  | encode n m => exact encode_ends m h
  | decode n m => exact decode_ends m h
  | format => exact format_ends h
  | parse n => exact parse_ends h

/-- Every command begins with `takeCommand` (R113). -/
theorem exec_eq_takeCommand (i : Instr) : ∃ run, ∀ s, exec i s = takeCommand i s run := by
  cases i with
  | enc6 => exact ⟨_, execEnc6.eq_1⟩
  | dec8 => exact ⟨_, execDec8.eq_1⟩
  | encode n m => exact ⟨_, execEncode.eq_1 n m⟩
  | decode n m => exact ⟨_, execDecode.eq_1 n m⟩
  | format => exact ⟨_, execFormat.eq_1⟩
  | parse n => exact ⟨_, execParse.eq_1 n⟩

theorem exec_faulted (i : Instr) {s : State} (h : s.fault = true) : exec i s = .next s.withRefused := by
  obtain ⟨run, hrun⟩ := exec_eq_takeCommand i
  rw [hrun, takeCommand_faulted h]
  rfl

theorem exec_dinLength {i : Instr} {s : State} (hf : s.fault = false) (hl : s.din.length ≠ lIn i) :
    exec i s = .refused (.dinLength (lIn i) s.din.length) := by
  obtain ⟨run, hrun⟩ := exec_eq_takeCommand i
  rw [hrun, takeCommand_dinLength hf hl]

/-- Everything a command that ends in a next state can have done. -/
theorem exec_next {i : Instr} {s t : State} (h : exec i s = .next t) :
    (s.fault = true ∧ t = s.withRefused) ∨
      (s.fault = false ∧ ∃ e, Ends i s.din e ∧ t = e.after (lOut i) s) := by
  cases hf : s.fault with
  | true =>
    rw [exec_faulted i hf] at h
    cases h
    exact .inl ⟨rfl, rfl⟩
  | false =>
    by_cases hl : s.din.length = lIn i
    · obtain ⟨e, he⟩ := exec_ending hl
      rw [he.2 s hf rfl] at h
      cases h
      exact .inr ⟨rfl, e, he, rfl⟩
    · rw [exec_dinLength hf hl] at h
      cases h

/-! ### The host's reads -/

/-- A read of an output that has a value is a step that delivers it (R29). -/
theorem step_read_value {s : State} {p : OutPort} {rest : List HostAction} {r : Reading}
    (hs : s.host = .read p :: rest) (hr : hostRead s p = .ok r) :
    step s = .next { s with host := rest, seen := some r } :=
  (step_action hs).trans (readPort_ok (s := s.popHost rest) hr)

/-- A read of an output that has none stops the model (R37, R130). -/
theorem step_read_none {s : State} {p : OutPort} {rest : List HostAction} {f : Fault}
    (hs : s.host = .read p :: rest) (hr : hostRead s p = .error f) : step s = .fault f :=
  (step_action hs).trans (readPort_error (s := s.popHost rest) hr)

theorem hostRead_dout_value {s : State} {j : Nat} {b : Byte} (hj : j < s.doutLen) (hb : s.dout.read j = some b) :
    hostRead s (.dout j) = .ok (.dout b) := by
  simp [hostRead, hj, hb]

theorem hostRead_dout_poison {s : State} {j : Nat} (hj : j < s.doutLen) (hb : s.dout.read j = none) :
    hostRead s (.dout j) = .error (.poisonRead (.dout j)) := by
  simp [hostRead, hj, hb]

theorem hostRead_dout_past {s : State} {j : Nat} (hj : s.doutLen ≤ j) :
    hostRead s (.dout j) = .error (.doutRead j) := by
  simp [hostRead, Nat.not_lt.2 hj]

theorem hostRead_valid_value {s : State} {b : Bool} (h : s.valid = some b) :
    hostRead s .valid = .ok (.valid b) := by
  simp [hostRead, h]

theorem hostRead_valid_none {s : State} (h : s.valid = none) :
    hostRead s .valid = .error (.poisonRead .valid) := by
  simp [hostRead, h]

/-! ### The rules for commands -/

/-- Settles O47, by the cases FAULT = 1, another length than L_in(cmd), and a command that runs. -/
theorem commandsStayInsideBuffers : Obligations.CommandsStayInsideBuffers := by
  unfold Obligations.CommandsStayInsideBuffers
  intro i s
  cases hf : s.fault with
  | true => simp [exec_faulted i hf]
  | false =>
    by_cases hl : s.din.length = lIn i
    · obtain ⟨e, -, he⟩ := exec_ending hl
      simp [he s hf rfl, hl]
    · simp [exec_dinLength hf hl, hl, eq_comm]

/-- Settles O48: both states end with the same `Ending`. -/
theorem outcomeDependsOnOperandsOnly : Obligations.OutcomeDependsOnOperandsOnly := by
  unfold Obligations.OutcomeDependsOnOperandsOnly
  intro i s s' t hfault hdin h
  rcases exec_next h with ⟨hf, rfl⟩ | ⟨hf, e, ⟨-, he⟩, rfl⟩
  · exact ⟨_, exec_faulted i (hfault.trans hf), rfl, rfl, rfl, rfl⟩
  · refine ⟨_, he s' (hfault.trans hf) hdin, ?_⟩
    cases e <;> exact ⟨rfl, rfl, rfl, rfl⟩

/-- Settles O41, by the ways a command ends. -/
theorem commandFrame : Obligations.CommandFrame := by
  unfold Obligations.CommandFrame
  intro i s t h
  rcases exec_next h with ⟨-, rfl⟩ | ⟨-, e, ⟨hfill, -⟩, rfl⟩
  · exact ⟨rfl, rfl, rfl, fun _ => ⟨rfl, rfl⟩, fun _ _ => rfl⟩
  · cases e with
    | success b v =>
      refine ⟨rfl, rfl, rfl, fun _ => ⟨rfl, rfl⟩, fun a ha => ?_⟩
      have hb : b.length ≤ a := Eq.trans_le hfill ha
      exact (Memory.read_ofBytes b a).trans (List.getElem?_eq_none hb)
    | error k v => exact ⟨rfl, rfl, rfl, fun _ => ⟨rfl, rfl⟩, fun _ _ => rfl⟩
    | fault c => exact ⟨rfl, rfl, rfl, fun hne => absurd rfl (hne c), fun _ _ => rfl⟩

/-- Settles O43: of the ways a command ends only Success answers so, and its bytes fill DOUT. -/
theorem successDefinesEveryByte : Obligations.SuccessDefinesEveryByte := by
  unfold Obligations.SuccessDefinesEveryByte
  intro i s t h hsucc
  rcases exec_next h with ⟨-, rfl⟩ | ⟨-, e, ⟨hfill, -⟩, rfl⟩
  · cases hsucc
  · cases e with
    | success b v =>
      refine ⟨hfill, Memory.wf_ofBytesFrom 0 b, fun j hj => ?_⟩
      have hj : j < b.length := hj.trans_eq hfill.symm
      exact ⟨b[j], hostRead_dout_value hj ((Memory.read_ofBytes b j).trans (List.getElem?_eq_getElem hj))⟩
    | error k v => cases hsucc
    | fault c => cases hsucc

/-- Settles O26: DECODE finds the bytes that ENCODE cut into symbols, since `dec_text` undoes `enc_bytes`. -/
theorem decodeUndoesEncode : Obligations.DecodeUndoesEncode := by
  unfold Obligations.DecodeUndoesEncode
  refine ⟨decText_encBytes, fun s b hf hb =>
    ⟨?_, ?_, s.withSuccess (encBytes b) none, encBytes b, ?_, rfl, encBytes_length b, ?_⟩⟩
  · exact Instr.wellFormed_encode.2 (by omega)
  · exact Instr.wellFormed_decode.2 (by omega)
  · exact exec_encode_success (s := { s with din := b }) hf rfl rfl
  · refine exec_decode_success (s := { s.withSuccess (encBytes b) none with din := encBytes b }) hf
      (encBytes_length b) ?_ (decText_encBytes _ b)
    rw [decLen]
    omega

/-! ### The rules for reads -/

/-- Settles O11. -/
theorem faultRegistersReadAnytime : Obligations.FaultRegistersReadAnytime := by
  unfold Obligations.FaultRegistersReadAnytime
  exact fun s rest => ⟨fun hs => step_read_value hs rfl, fun hs => step_read_value hs rfl⟩

/-- Settles O12, by the port and by what the port holds. -/
theorem outputReadsDeliverOrStop : Obligations.OutputReadsDeliverOrStop := by
  unfold Obligations.OutputReadsDeliverOrStop
  intro s rest
  refine ⟨fun j hs => ⟨fun b hj hb => ?_, fun hj hb => ?_, fun hj => ?_⟩,
    fun hs => ⟨fun ha => ?_, fun k ha => ?_, fun ha => ?_, fun c ha => ?_, fun ha => ?_⟩,
    fun hs => ⟨fun b hv => ?_, fun hv => ?_⟩⟩
  · exact step_read_value hs (hostRead_dout_value hj hb)
  · exact step_read_none hs (hostRead_dout_poison hj hb)
  · exact step_read_none hs (hostRead_dout_past hj)
  · exact step_read_value hs (hostRead_status_value (by rw [State.status, ha]; rfl))
  · exact step_read_value hs (hostRead_status_value (by rw [State.status, ha]))
  · exact step_read_none hs (hostRead_status_none (by rw [State.status, ha]))
  · exact step_read_none hs (hostRead_status_none (by rw [State.status, ha]))
  · exact step_read_none hs (hostRead_status_none (by rw [State.status, ha]))
  · exact step_read_value hs (hostRead_valid_value hv)
  · exact step_read_none hs (hostRead_valid_none hv)

/-! ### The step -/

/-- Settles O6. -/
theorem stepRunsDecodedCommand : Obligations.StepRunsDecodedCommand := by
  unfold Obligations.StepRunsDecodedCommand
  intro s w din rest i hs hf hd
  exact (step_action hs).trans (issueCommand_legal (t := ⟨w, din⟩) (s := s.popHost rest) hf hd)

/-- What a step that ends in a next state has done to FAULT and FCAUSE, by the host's action (R20, R112). -/
theorem step_faultRegisters {s t : State} (h : step s = .next t) :
    (∃ p rest, s.host = .reset p :: rest ∧ t.fault = false ∧ t.fcause = 0) ∨
    (t.fault = s.fault ∧ t.fcause = s.fcause) ∨
    (∃ c x rest, s.host = .issue x :: rest ∧ s.fault = false ∧ t = (s.popHost rest).withFault c) := by
  rcases step_cases h with ⟨-, rfl⟩ | ⟨p, rest, hs, rfl⟩ | ⟨p, r, rest, -, -, rfl⟩ | ⟨x, rest, -, -, rfl⟩ |
    ⟨x, e, rest, hs, hf, -, rfl⟩ | ⟨x, i, rest, hs, hf, -, hx⟩
  · exact .inr (.inl ⟨rfl, rfl⟩)
  · exact .inl ⟨p, rest, hs, rfl, rfl⟩
  · exact .inr (.inl ⟨rfl, rfl⟩)
  · exact .inr (.inl ⟨rfl, rfl⟩)
  · exact .inr (.inr ⟨.illegalCommand, x, rest, hs, hf, rfl⟩)
  · rcases exec_next hx with ⟨-, rfl⟩ | ⟨-, e, -, rfl⟩
    · exact .inr (.inl ⟨rfl, rfl⟩)
    · cases e with
      | success b v => exact .inr (.inl ⟨rfl, rfl⟩)
      | error k v => exact .inr (.inl ⟨rfl, rfl⟩)
      | fault c => exact .inr (.inr ⟨c, x, rest, hs, hf, rfl⟩)

/-- Settles O50, by what a step can do to the fault registers. -/
theorem faultSetByEntryClearedByReset : Obligations.FaultSetByEntryClearedByReset := by
  unfold Obligations.FaultSetByEntryClearedByReset
  intro s t h
  rcases step_faultRegisters h with ⟨p, rest, hs, ht, -⟩ | ⟨hfault, hfcause⟩ | ⟨c, x, rest, hs, hf, rfl⟩
  · exact ⟨fun _ h1 => absurd (ht.symm.trans h1) Bool.false_ne_true, fun _ _ => ⟨p, rest, hs⟩,
      fun _ h1 => absurd (ht.symm.trans h1) Bool.false_ne_true⟩
  · rw [hfault]
    exact ⟨fun h0 h1 => absurd (h0.symm.trans h1) Bool.false_ne_true,
      fun h1 h0 => absurd (h0.symm.trans h1) Bool.false_ne_true, fun _ _ => hfcause⟩
  · exact ⟨fun _ _ => ⟨c, x, rest, hs, rfl, rfl⟩, fun h1 => absurd (hf.symm.trans h1) Bool.false_ne_true,
      fun h1 => absurd (hf.symm.trans h1) Bool.false_ne_true⟩

/-- A step of a faulted block without a reset changes no register, and answers a command with Refused (R111). -/
theorem step_faulted {s t : State} (hf : s.fault = true) (hr : resetFree s.host = true) (h : step s = .next t) :
    t.fault = true ∧ t.fcause = s.fcause ∧ resetFree t.host = true ∧
      ∀ x rest, s.host = .issue x :: rest → t.outcome = some .refused := by
  rcases step_cases h with ⟨hs, rfl⟩ | ⟨p, rest, hs, -⟩ | ⟨p, r, rest, hs, -, rfl⟩ | ⟨x, rest, hs, -, rfl⟩ |
    ⟨x, e, rest, -, h0, -⟩ | ⟨x, i, rest, -, h0, -⟩
  · exact ⟨hf, rfl, hr, fun x rest hx => by simp [hs] at hx⟩
  · simp [hs, resetFree] at hr
  · exact ⟨hf, rfl, by simpa [hs, resetFree] using hr, fun x rest hx => by simp [hs] at hx⟩
  · exact ⟨hf, rfl, by simpa [hs, resetFree] using hr, fun _ _ _ => rfl⟩
  · exact absurd (h0.symm.trans hf) Bool.false_ne_true
  · exact absurd (h0.symm.trans hf) Bool.false_ne_true

/-- An outcome returned in `k + 1` steps is that of a command in the first step, or comes later. -/
theorem mem_outcomesOf_succ {k : Nat} {s t : State} {o : TxOutcome} (h : step s = .next t)
    (ho : o ∈ outcomesOf (k + 1) s) :
    (∃ x rest, s.host = .issue x :: rest ∧ t.outcome = some o) ∨ o ∈ outcomesOf k t := by
  rw [outcomesOf, h] at ho
  split at ho
  · next x rest u hs hu =>
    cases hu
    rcases List.mem_append.1 ho with ho | ho
    · exact .inl ⟨x, rest, hs, Option.mem_toList.1 ho⟩
    · exact .inr ho
  · next heq _ => cases heq; exact .inr ho
  · cases ho

/-- Settles O51, by induction on the number of steps: each keeps the block faulted (`step_faulted`). -/
theorem faultedRunIsRefused : Obligations.FaultedRunIsRefused := by
  unfold Obligations.FaultedRunIsRefused
  intro k
  induction k with
  | zero =>
    intro s t hf _ h
    cases h
    exact ⟨hf, rfl, fun o ho => by cases ho⟩
  | succ k ih =>
    intro s t hf hr h
    rw [core_run_succ] at h
    cases hu : step s with
    | next u =>
      rw [hu] at h
      obtain ⟨huf, huc, hur, hout⟩ := step_faulted hf hr hu
      obtain ⟨htf, htc, hlater⟩ := ih u t huf hur h
      refine ⟨htf, htc.trans huc, fun o ho => ?_⟩
      rcases mem_outcomesOf_succ hu ho with ⟨x, rest, hs, ho⟩ | ho
      · exact Option.some_inj.1 (ho.symm.trans (hout x rest hs))
      · exact hlater o ho
    | fault f => rw [hu] at h; cases h
    | refused r => rw [hu] at h; cases h

/-! ### Several blocks (R31, R120) -/

theorem stepInstance_next {k : Nat} {sys : List State} {s t : State} (hs : sys[k]? = some s) (h : step s = .next t) :
    stepInstance k sys = .next (sys.set k t) := by
  rw [stepInstance, hs]
  simp only [h]

theorem stepInstance_none {k : Nat} {sys : List State} (hs : sys[k]? = none) : stepInstance k sys = .next sys := by
  rw [stepInstance, hs]

/-- Everything a step of block k that ends in a next state can have been. -/
theorem stepInstance_cases {k : Nat} {sys new : List State} (h : stepInstance k sys = .next new) :
    (sys[k]? = none ∧ new = sys) ∨ ∃ s t, sys[k]? = some s ∧ step s = .next t ∧ new = sys.set k t := by
  cases hs : sys[k]? with
  | none => rw [stepInstance_none hs] at h; cases h; exact .inl ⟨rfl, rfl⟩
  | some s =>
    rw [stepInstance, hs] at h
    cases ht : step s with
    | next t => simp only [ht] at h; cases h; exact .inr ⟨s, t, rfl, ht, rfl⟩
    | fault f => simp only [ht] at h; cases h
    | refused r => simp only [ht] at h; cases h

/-- Settles O54: an index past the list does nothing, and any other step sets entry k alone. -/
theorem instancesAreIndependent : Obligations.InstancesAreIndependent := by
  unfold Obligations.InstancesAreIndependent
  intro k sys sys' new h
  rcases stepInstance_cases h with ⟨hs, rfl⟩ | ⟨s, t, hs, ht, rfl⟩
  · exact ⟨fun _ _ => rfl, fun hk => ⟨sys', stepInstance_none (hk.trans hs), hk⟩⟩
  · refine ⟨fun j hj => List.getElem?_set_ne hj.symm, fun hk => ⟨_, stepInstance_next (hk.trans hs) ht, ?_⟩⟩
    rw [List.getElem?_set_self', List.getElem?_set_self', hk]

/-! ### The invariant -/

theorem lenInField_le (w : CmdWord) : lenInField w ≤ Config.maxLen :=
  Nat.le_of_lt_succ (w.extractLsb' 8 12).isLt

theorem lenOutField_le (w : CmdWord) : lenOutField w ≤ Config.maxLen :=
  Nat.le_of_lt_succ (w.extractLsb' 20 12).isLt

/-- The lengths of a decoded command are those of its word, which has 12 bits for each (R48, R67). -/
theorem wellFormed_of_decodeCmd {w : CmdWord} {i : Instr} (h : decodeCmd w = .ok i) : i.wellFormed = true := by
  have hn := lenInField_le w
  have hm := lenOutField_le w
  unfold decodeCmd decodeOp at h
  split at h
  · cases h
  · split at h
    · split at h <;> cases h
      rfl
    · split at h <;> cases h
      rfl
    · cases h; simp [Instr.wellFormed, hn, hm]
    · cases h; simp [Instr.wellFormed, hn, hm]
    · split at h <;> cases h
      rfl
    · split at h <;> cases h
      simp [Instr.wellFormed, hn]
    · cases h

theorem lOut_le_maxLen {i : Instr} (h : i.wellFormed = true) : lOut i ≤ Config.maxLen := by
  cases i with
  | encode n m => exact (Instr.wellFormed_encode.1 h).2
  | decode n m => exact (Instr.wellFormed_decode.1 h).2
  | enc6 | dec8 | format => decide
  | parse n => exact (by decide : 40 ≤ Config.maxLen)

/-- The invariant speaks of the block alone, not of what the host does next and has read. -/
theorem State.Inv.withHost {s : State} (h : s.Inv) (host : List HostAction) (seen : Option Reading) :
    State.Inv { s with host := host, seen := seen } :=
  ⟨h.faultPair, h.doutCanonical, h.doutInside, h.doutFits, h.dinGone, h.outputs⟩

/-- Every cause has one of the three codes of R55. -/
theorem Cause.code_legal (c : Cause) : c.code = 1 ∨ c.code = 2 ∨ c.code = 3 := by
  cases c <;> decide

/-- With FAULT = 0 the pair is legal only as (0, 0), and the outputs of a Success stand (R36). -/
theorem withSuccess_inv {s : State} (hp : s.FaultPairLegal) (hf : s.fault = false) {b : List Byte}
    (hb : b.length ≤ Config.maxLen) (v : Option Bool) : (s.withSuccess b v).Inv where
  faultPair := hp
  doutCanonical := Memory.wf_ofBytesFrom 0 b
  doutInside c hc := (Memory.mem_ofBytesFrom hc).2.trans_eq (Nat.zero_add _)
  doutFits := hb
  dinGone := rfl
  outputs := ⟨hf, fun i hi => by
    rw [show (s.withSuccess b v).dout.read i = b[i]? from Memory.read_ofBytes b i]
    exact Option.isSome_iff_exists.2 ⟨_, List.getElem?_eq_getElem hi⟩⟩

/-- Where no byte of DOUT is defined, canonical form and bounds hold of themselves. -/
theorem inv_of_dout_nil {s : State} (hp : s.FaultPairLegal) (hdout : s.dout = []) (hlen : s.doutLen ≤ Config.maxLen)
    (hdin : s.din = []) (ho : s.OutputsMatchAnswer) : s.Inv :=
  ⟨hp, by rw [hdout]; rfl, by simp [hdout], hlen, hdin, ho⟩

theorem withError_inv {s : State} (hp : s.FaultPairLegal) (hf : s.fault = false) (k : ErrorKind) {len : Nat}
    (hlen : len ≤ Config.maxLen) (v : Option Bool) : (s.withError k len v).Inv :=
  inv_of_dout_nil hp rfl hlen rfl ⟨hf, rfl⟩

theorem withFault_inv (s : State) (c : Cause) : (s.withFault c).Inv :=
  inv_of_dout_nil ⟨nofun, fun _ => c.code_legal⟩ rfl (Nat.zero_le _) rfl ⟨rfl, rfl, rfl, rfl⟩

theorem withRefused_inv {s : State} (hp : s.FaultPairLegal) (hf : s.fault = true) : s.withRefused.Inv :=
  inv_of_dout_nil hp rfl (Nat.zero_le _) rfl ⟨hf, rfl, rfl⟩

/-- A command establishes the invariant from the fault pair alone. -/
theorem exec_inv {i : Instr} {s t : State} (hp : s.FaultPairLegal) (hlen : lOut i ≤ Config.maxLen)
    (h : exec i s = .next t) : t.Inv := by
  rcases exec_next h with ⟨hf, rfl⟩ | ⟨hf, e, ⟨hfill, -⟩, rfl⟩
  · exact withRefused_inv hp hf
  · cases e with
    | success b v => exact withSuccess_inv hp hf (Eq.trans_le hfill hlen) v
    | error k v => exact withError_inv hp hf k hlen v
    | fault c => exact withFault_inv s c

/-- Settles O52. -/
theorem resetMeetsInv : Obligations.ResetMeetsInv := by
  unfold Obligations.ResetMeetsInv
  exact inv_of_dout_nil ⟨fun _ => rfl, nofun⟩ rfl (Nat.zero_le _) rfl ⟨rfl, rfl, rfl⟩

/-- Settles O53, by what a step can be: one that takes no command leaves the block as it was or resets it, and
a command leaves outputs that match its answer. -/
theorem stepKeepsInv : Obligations.StepKeepsInv := by
  unfold Obligations.StepKeepsInv
  intro s t hi h
  rcases step_cases h with ⟨-, rfl⟩ | ⟨p, rest, -, rfl⟩ | ⟨p, r, rest, -, -, rfl⟩ | ⟨x, rest, -, hf, rfl⟩ |
    ⟨x, e, rest, -, -, -, rfl⟩ | ⟨x, i, rest, -, -, hd, hx⟩
  · exact hi
  · exact State.Inv.withHost resetMeetsInv rest s.seen
  · exact hi.withHost rest (some r)
  · exact withRefused_inv (s := s.popHost rest) hi.faultPair hf
  · exact withFault_inv (s.popHost rest) .illegalCommand
  · exact exec_inv (s := (s.popHost rest).present x.din) hi.faultPair (lOut_le_maxLen (wellFormed_of_decodeCmd hd)) hx

end Sys2Proof.Machine

/-! The buffers: what stands in DOUT after a command, and the bit streams of the group codec (20_memory.md). -/

namespace Sys2Proof.Machine

/-! ### Bits, most significant first (R39) -/

theorem bitsMsb_congr {k m n : Nat} (h : ∀ i < k, m.testBit i = n.testBit i) : bitsMsb k m = bitsMsb k n := by
  induction k with
  | zero => rfl
  | succ k ih => rw [bitsMsb, bitsMsb, h k k.lt_succ_self, ih fun i hi => h i (Nat.lt_succ_of_lt hi)]

/-- Any number `j` of high bits, so that the induction on it leaves the two vectors alone. -/
theorem bitsMsb_toNat_append (j : Nat) {k l : Nat} (x : BitVec k) (y : BitVec l) :
    bitsMsb (j + l) (x ++ y).toNat = bitsMsb j x.toNat ++ bitsMsb l y.toNat := by
  induction j with
  | zero =>
    rw [Nat.zero_add]
    exact bitsMsb_congr fun i hi => by simp [BitVec.testBit_toNat, hi]
  | succ j ih =>
    have hbit : (x ++ y).toNat.testBit (j + l) = x.toNat.testBit j := by
      simp [BitVec.testBit_toNat]
    rw [Nat.add_right_comm, bitsMsb, hbit, ih]
    rfl

/-- The bits of a vector are those of its high part and then those of its low part. -/
theorem bitsMsb_toNat_cut (k l : Nat) (x : BitVec (k + l)) :
    bitsMsb (k + l) x.toNat = bitsMsb k (x.extractLsb' l k).toNat ++ bitsMsb l (x.extractLsb' 0 l).toNat := by
  rw [← bitsMsb_toNat_append, BitVec.extractLsb'_append_extractLsb']

@[simp] theorem bitsMsb_length (k n : Nat) : (bitsMsb k n).length = k := by
  induction k with
  | zero => rfl
  | succ k ih => rw [bitsMsb, List.length_cons, ih]

/-! ### Streams -/

@[simp] theorem byteStream_nil : byteStream [] = [] := rfl

@[simp] theorem byteStream_cons (x : Byte) (b : List Byte) :
    byteStream (x :: b) = bitsMsb 8 x.toNat ++ byteStream b :=
  List.flatMap_cons

theorem byteStream_append (a b : List Byte) : byteStream (a ++ b) = byteStream a ++ byteStream b :=
  List.flatMap_append

theorem byteStream_length (b : List Byte) : (byteStream b).length = 8 * b.length := by
  induction b with
  | nil => rfl
  | cons x b ih =>
    rw [byteStream_cons, List.length_append, bitsMsb_length, ih, List.length_cons]
    omega

@[simp] theorem symbolStream_nil : symbolStream [] = [] := rfl

theorem symbolStream_append (a b : List Byte) : symbolStream (a ++ b) = symbolStream a ++ symbolStream b :=
  List.flatMap_append

theorem symbolStream_cons {c : Byte} {v : Sym} (h : rev c = some v) (t : List Byte) :
    symbolStream (c :: t) = bitsMsb 6 v.toNat ++ symbolStream t := by
  rw [symbolStream, List.flatMap_cons, h]
  rfl

@[simp] theorem symbolStream_alpha_cons (v : Sym) (t : List Byte) :
    symbolStream (alpha v :: t) = bitsMsb 6 v.toNat ++ symbolStream t :=
  symbolStream_cons (rev_alpha v) t

/-! ### The symbols of a group carry the bits of its bytes (R60, R61) -/

theorem bitsMsb_sym1 (x y : Byte) :
    bitsMsb 6 (sym1 x y).toNat = bitsMsb 2 (x.extractLsb' 0 2).toNat ++ bitsMsb 4 (y.extractLsb' 4 4).toNat :=
  bitsMsb_toNat_append 2 (x.extractLsb' 0 2) (y.extractLsb' 4 4)

theorem bitsMsb_sym2 (y z : Byte) :
    bitsMsb 6 (sym2 y z).toNat = bitsMsb 4 (y.extractLsb' 0 4).toNat ++ bitsMsb 2 (z.extractLsb' 6 2).toNat :=
  bitsMsb_toNat_append 4 (y.extractLsb' 0 4) (z.extractLsb' 6 2)

theorem bitsMsb_firstByte (x : Byte) :
    bitsMsb 8 x.toNat = bitsMsb 6 (sym0 x).toNat ++ bitsMsb 2 (x.extractLsb' 0 2).toNat :=
  bitsMsb_toNat_cut 6 2 x

theorem bitsMsb_secondByte (y : Byte) :
    bitsMsb 8 y.toNat = bitsMsb 4 (y.extractLsb' 4 4).toNat ++ bitsMsb 4 (y.extractLsb' 0 4).toNat :=
  bitsMsb_toNat_cut 4 4 y

theorem bitsMsb_thirdByte (z : Byte) :
    bitsMsb 8 z.toNat = bitsMsb 2 (z.extractLsb' 6 2).toNat ++ bitsMsb 6 (sym3 z).toNat :=
  bitsMsb_toNat_cut 2 6 z

theorem symbolStream_encGroup3 (x y z : Byte) : symbolStream (encGroup3 x y z) = byteStream [x, y, z] := by
  simp [encGroup3, bitsMsb_sym1, bitsMsb_sym2, bitsMsb_firstByte x, bitsMsb_secondByte y, bitsMsb_thirdByte z]

theorem symbolStream_encGroup2 (x y : Byte) :
    symbolStream (encGroup2 x y) = byteStream [x, y] ++ List.replicate 2 false := by
  have hlast : bitsMsb 6 (y.extractLsb' 0 4 ++ 0#2).toNat = bitsMsb 4 (y.extractLsb' 0 4).toNat ++ [false, false] :=
    bitsMsb_toNat_append 4 _ 0#2
  simp [encGroup2, bitsMsb_sym1, hlast, bitsMsb_firstByte x, bitsMsb_secondByte y]

theorem symbolStream_encGroup1 (x : Byte) :
    symbolStream (encGroup1 x) = byteStream [x] ++ List.replicate 4 false := by
  have hlast : bitsMsb 6 (x.extractLsb' 0 2 ++ 0#4).toNat =
      bitsMsb 2 (x.extractLsb' 0 2).toNat ++ [false, false, false, false] :=
    bitsMsb_toNat_append 2 _ 0#4
  simp [encGroup1, hlast, bitsMsb_firstByte x]

/-- Settles O21, by the groups of `enc_bytes`: a full group fills its four symbols, so a remainder alone decides
how many zero bits follow. -/
theorem encodePacksBitsMsbFirst : Obligations.EncodePacksBitsMsbFirst := by
  unfold Obligations.EncodePacksBitsMsbFirst
  intro b
  induction b using encBytes.induct with
  | case1 x y z rest ih =>
    have hfill : 6 * ((4 * (rest.length + 3) + 2) / 3) - 8 * (rest.length + 3) =
        6 * ((4 * rest.length + 2) / 3) - 8 * rest.length := by omega
    rw [encBytes, symbolStream_append, symbolStream_encGroup3, ih, ← List.append_assoc, ← byteStream_append]
    exact congrArg (fun k => byteStream (x :: y :: z :: rest) ++ List.replicate k false) hfill.symm
  | case2 x y => simp [encBytes, symbolStream_encGroup2]
  | case3 x => simp [encBytes, symbolStream_encGroup1]
  | case4 => rfl

/-! ### The bytes of a group carry the leading bits of its symbols (R60, R61, R82) -/

theorem bitsMsb_byte0 (v0 v1 : Sym) :
    bitsMsb 8 (byte0 v0 v1).toNat = bitsMsb 6 v0.toNat ++ bitsMsb 2 (v1.extractLsb' 4 2).toNat :=
  bitsMsb_toNat_append 6 v0 (v1.extractLsb' 4 2)

theorem bitsMsb_byte1 (v1 v2 : Sym) :
    bitsMsb 8 (byte1 v1 v2).toNat = bitsMsb 4 (v1.extractLsb' 0 4).toNat ++ bitsMsb 4 (v2.extractLsb' 2 4).toNat :=
  bitsMsb_toNat_append 4 (v1.extractLsb' 0 4) (v2.extractLsb' 2 4)

theorem bitsMsb_byte2 (v2 v3 : Sym) :
    bitsMsb 8 (byte2 v2 v3).toNat = bitsMsb 2 (v2.extractLsb' 0 2).toNat ++ bitsMsb 6 v3.toNat :=
  bitsMsb_toNat_append 2 (v2.extractLsb' 0 2) v3

theorem byteStream_decGroup2 (v0 v1 : Sym) :
    byteStream (decGroup2 v0 v1) = bitsMsb 6 v0.toNat ++ bitsMsb 2 (v1.extractLsb' 4 2).toNat := by
  simp [decGroup2, bitsMsb_byte0]

theorem byteStream_decGroup3 (v0 v1 v2 : Sym) :
    byteStream (decGroup3 v0 v1 v2) =
      bitsMsb 6 v0.toNat ++ (bitsMsb 6 v1.toNat ++ bitsMsb 4 (v2.extractLsb' 2 4).toNat) := by
  have hv1 : bitsMsb 6 v1.toNat = _ := bitsMsb_toNat_cut 2 4 v1
  simp [decGroup3, bitsMsb_byte0, bitsMsb_byte1, hv1]

theorem byteStream_decGroup4 (v0 v1 v2 v3 : Sym) :
    byteStream (decGroup4 v0 v1 v2 v3) =
      bitsMsb 6 v0.toNat ++ (bitsMsb 6 v1.toNat ++ (bitsMsb 6 v2.toNat ++ bitsMsb 6 v3.toNat)) := by
  have hv1 : bitsMsb 6 v1.toNat = _ := bitsMsb_toNat_cut 2 4 v1
  have hv2 : bitsMsb 6 v2.toNat = _ := bitsMsb_toNat_cut 4 2 v2
  simp [decGroup4, bitsMsb_byte0, bitsMsb_byte1, bitsMsb_byte2, hv1, hv2]

/-- The bits of a symbol that a remainder keeps lead its six (R61). -/
theorem bitsMsb_high_isPrefix (k l : Nat) (x : BitVec (k + l)) :
    bitsMsb k (x.extractLsb' l k).toNat <+: bitsMsb (k + l) x.toNat :=
  ⟨_, (bitsMsb_toNat_cut k l x).symm⟩

/-- The decoded bytes lead the symbol stream; what follows them are the discarded bits (R82). -/
theorem byteStream_isPrefix_of_decGroups {t b : List Byte} (h : decGroups t = .ok b) :
    byteStream b <+: symbolStream t := by
  induction t using decGroups.induct generalizing b with
  | case1 c0 c1 c2 c3 rest v0 v1 v2 v3 h3 h2 h1 h0 bs hbs ih =>
    simp only [decGroups, h0, h1, h2, h3, hbs] at h
    cases h
    simpa [byteStream_append, byteStream_decGroup4, symbolStream_cons, h0, h1, h2, h3] using ih hbs
  | case4 c0 c1 c2 v0 v1 v2 h2 h1 h0 =>
    simp only [decGroups, h0, h1, h2] at h
    cases h
    simpa [byteStream_decGroup3, symbolStream_cons, h0, h1, h2] using bitsMsb_high_isPrefix 4 2 v2
  | case6 c0 c1 v0 v1 h1 h0 =>
    simp only [decGroups, h0, h1] at h
    cases h
    simpa [byteStream_decGroup2, symbolStream_cons, h0, h1] using bitsMsb_high_isPrefix 2 4 v1
  | case9 => cases h; exact ⟨_, rfl⟩
  -- In the other cases the text does not decode.
  | case2 | case3 | case5 | case7 | case8 => simp_all [decGroups]

/-- The error order takes no part where a text decodes (R78). -/
theorem decGroups_of_decText {o : DecodeErrOrder} {t b : List Byte} (h : decText o t = .ok b) :
    decGroups t = .ok b := by
  unfold decText at h
  split at h
  · cases h
  · exact h

/-- Settles O22: the symbol stream is the bits of the bytes and then the discarded bits, and R79 gives the number
of bytes. -/
theorem decodeUnpacksBitsMsbFirst : Obligations.DecodeUnpacksBitsMsbFirst := by
  unfold Obligations.DecodeUnpacksBitsMsbFirst
  intro o t b h
  obtain ⟨discarded, hstream⟩ := byteStream_isPrefix_of_decGroups (decGroups_of_decText h)
  have hlen : (byteStream b).length = 8 * (3 * t.length / 4) := by
    rw [byteStream_length, decText_length h, decLen]
  rw [← hstream, List.take_left' hlen]

/-! ### DOUT after a command -/

/-- Settles O44: of the ways a command ends only Error answers so, and it leaves no byte of DOUT defined. -/
theorem errorPoisonsEveryByte : Obligations.ErrorPoisonsEveryByte := by
  unfold Obligations.ErrorPoisonsEveryByte
  intro i s t k h herr
  rcases exec_next h with ⟨-, rfl⟩ | ⟨-, e, -, rfl⟩
  · cases herr
  · cases e with
    | error k v => exact ⟨rfl, fun j hj => hostRead_dout_poison hj rfl⟩
    | success b v => cases herr
    | fault c => cases herr

/-! ### A command issued again (R41) -/

/-- The outcome of a command is in its ending, whatever state it started in (R25, R43). -/
theorem Ending.after_outcome (e : Ending) (len : Nat) (s s' : State) :
    (e.after len s).outcome = (e.after len s').outcome := by
  cases e <;> rfl

theorem Ending.after_host (e : Ending) (len : Nat) (s : State) : (e.after len s).host = s.host := by
  cases e <;> rfl

/-- An ending that leaves FAULT = 0 in one state changes neither fault register in any state (R105, R110). -/
theorem Ending.after_faultRegisters {e : Ending} {len : Nat} {s : State} (h : (e.after len s).fault = false)
    (s' : State) : (e.after len s').fault = s'.fault ∧ (e.after len s').fcause = s'.fcause := by
  cases e with
  | success b v => exact ⟨rfl, rfl⟩
  | error k v => exact ⟨rfl, rfl⟩
  | fault c => cases h

section Issue

variable {s : State} {x : Transaction} {rest : List HostAction} (hs : s.host = .issue x :: rest) (hf : s.fault = false)
include hs hf

theorem step_issue_illegal {e : Illegal} (hd : decodeCmd x.cmd = .error e) :
    step s = .next ((s.popHost rest).withFault .illegalCommand) :=
  (step_action hs).trans (issueCommand_illegal (s := s.popHost rest) hf hd)

theorem step_issue_legal {i : Instr} (hd : decodeCmd x.cmd = .ok i) :
    step s = exec i ((s.popHost rest).present x.din) :=
  (step_action hs).trans (issueCommand_legal (s := s.popHost rest) hf hd)

end Issue

/-- Settles O49: the first step leaves FAULT = 0, so the second runs the same command on the same bytes, and
these determine its `Ending`. -/
theorem repeatedCommandSameOutcome : Obligations.RepeatedCommandSameOutcome := by
  unfold Obligations.RepeatedCommandSameOutcome
  intro s t x rest hs hf h ht
  cases hd : decodeCmd x.cmd with
  | error _ =>
    rw [step_issue_illegal hs hf hd] at h
    cases h
    cases ht
  | ok i =>
    rw [step_issue_legal hs hf hd] at h
    rcases exec_next h with ⟨hf', -⟩ | ⟨-, e, ⟨-, he⟩, rfl⟩
    · exact absurd (hf.symm.trans hf') Bool.false_ne_true
    · have hhost := Ending.after_host e (lOut i) ((s.popHost (.issue x :: rest)).present x.din)
      have hagain := (step_issue_legal hhost ht hd).trans (he _ ht rfl)
      exact ⟨_, hagain, Ending.after_outcome e _ _ _, Ending.after_faultRegisters ht _⟩

end Sys2Proof.Machine

/-! The command word: its decoder and encoder, the two ROMs, the formatted text, the status codes (30_encoding.md). -/

namespace Sys2Proof.Machine

/-! ### The decoder and the encoder (R48, R66 to R69) -/

theorem decodeCmd_eq_ok {w : CmdWord} {i : Instr} :
    decodeCmd w = .ok i ↔ rsvField w = 0 ∧ decodeOp (opField w) (lenInField w) (lenOutField w) = .ok i := by
  by_cases hr : rsvField w = 0 <;> simp [decodeCmd, hr]

/-- The rows of the table, one for each `OP` (R67). -/
theorem decodeOp_eq_ok {op n m : Nat} {i : Instr} :
    decodeOp op n m = .ok i ↔
      (op = 1 ∧ n = 0 ∧ m = 0 ∧ i = .enc6) ∨ (op = 2 ∧ n = 0 ∧ m = 0 ∧ i = .dec8) ∨
      (op = 3 ∧ i = .encode n m) ∨ (op = 4 ∧ i = .decode n m) ∨
      (op = 5 ∧ n = 0 ∧ m = 0 ∧ i = .format) ∨ (op = 6 ∧ m = 0 ∧ i = .parse n) := by
  unfold decodeOp
  split
  all_goals grind

/-- Settles O3. -/
theorem decodeCommandTable : Obligations.DecodeCommandTable := by
  unfold Obligations.DecodeCommandTable
  intro w i
  obtain ⟨hop, hrsv, hn, hm⟩ := fields_of_toNat w
  rw [decodeCmd_eq_ok, decodeOp_eq_ok, hop, hrsv, hn, hm]

/-- A packed word decodes by its operation alone: the lengths come back as they were put in. -/
theorem decodeCmd_packWord (op : BitVec 4) {n m : Nat} (hn : n ≤ Config.maxLen) (hm : m ≤ Config.maxLen) :
    decodeCmd (packWord op n m) = decodeOp op.toNat n m := by
  obtain ⟨ho, hr, hi, hu⟩ := Laws.packWord_fields op hn hm
  rw [decodeCmd, if_neg (not_not.2 hr), ho, hi, hu]

/-- Settles O1, by the operations: the row of the table at each `OP` gives the command that was packed. -/
theorem decodeOfEncodedCommand : Obligations.DecodeOfEncodedCommand := by
  unfold Obligations.DecodeOfEncodedCommand
  intro i h
  cases i with
  | enc6 => exact decodeCmd_packWord 1#4 (Nat.zero_le _) (Nat.zero_le _)
  | dec8 => exact decodeCmd_packWord 2#4 (Nat.zero_le _) (Nat.zero_le _)
  | encode n m =>
    obtain ⟨hn, hm⟩ := Instr.wellFormed_encode.1 h
    exact decodeCmd_packWord 3#4 hn hm
  | decode n m =>
    obtain ⟨hn, hm⟩ := Instr.wellFormed_decode.1 h
    exact decodeCmd_packWord 4#4 hn hm
  | format => exact decodeCmd_packWord 5#4 (Nat.zero_le _) (Nat.zero_le _)
  | parse n => exact decodeCmd_packWord 6#4 (Instr.wellFormed_parse.1 h) (Nat.zero_le _)

/-- The four fields hold all 32 bits of a word (R48). -/
theorem word_eq_of_fields_eq {w w' : CmdWord} (ho : opField w = opField w') (hr : rsvField w = rsvField w')
    (hn : lenInField w = lenInField w') (hm : lenOutField w = lenOutField w') : w = w' := by
  obtain ⟨ho₁, hr₁, hn₁, hm₁⟩ := fields_of_toNat w
  obtain ⟨ho₂, hr₂, hn₂, hm₂⟩ := fields_of_toNat w'
  apply BitVec.eq_of_toNat_eq
  omega

/-- A word with RSV = 0 is packed from its own fields. -/
theorem packWord_of_fields {w : CmdWord} {op : BitVec 4} (ho : opField w = op.toNat) (hr : rsvField w = 0) :
    packWord op (lenInField w) (lenOutField w) = w := by
  obtain ⟨ho', hr', hn', hm'⟩ := Laws.packWord_fields op (lenInField_le w) (lenOutField_le w)
  exact word_eq_of_fields_eq (ho'.trans ho.symm) (hr'.trans hr.symm) hn' hm'

/-- Settles O2, by the rows of the table: the command of a row encodes to the word packed from the same fields. -/
theorem encodeOfDecodedWord : Obligations.EncodeOfDecodedWord := by
  unfold Obligations.EncodeOfDecodedWord
  intro w i h
  refine ⟨wellFormed_of_decodeCmd h, ?_⟩
  obtain ⟨hr, hrow⟩ := decodeCmd_eq_ok.1 h
  rcases decodeOp_eq_ok.1 hrow with ⟨ho, hn, hm, rfl⟩ | ⟨ho, hn, hm, rfl⟩ | ⟨ho, rfl⟩ | ⟨ho, rfl⟩ |
    ⟨ho, hn, hm, rfl⟩ | ⟨ho, hm, rfl⟩
  · simpa only [encodeCmd, hn, hm] using packWord_of_fields (op := 1#4) ho hr
  · simpa only [encodeCmd, hn, hm] using packWord_of_fields (op := 2#4) ho hr
  · exact packWord_of_fields (op := 3#4) ho hr
  · exact packWord_of_fields (op := 4#4) ho hr
  · simpa only [encodeCmd, hn, hm] using packWord_of_fields (op := 5#4) ho hr
  · simpa only [encodeCmd, hm] using packWord_of_fields (op := 6#4) ho hr

/-- Settles O4: each word is written out in the spec, so the decoder and the assembler are run on it. -/
theorem writtenOutWordsDecode : Obligations.WrittenOutWordsDecode := by
  unfold Obligations.WrittenOutWordsDecode
  decide

/-- Settles O5: the length that a FIT form supplies fits its field, so the word decodes to the command it was made
from (`decodeOfEncodedCommand`). -/
theorem fitFormsAssemble : Obligations.FitFormsAssemble := by
  unfold Obligations.FitFormsAssemble
  refine ⟨fun n hn => ⟨encodeCmd (.encode n ((4 * n + 2) / 3)), ?_, ?_⟩, fun n hn => ?_,
    fun n hn => ⟨encodeCmd (.decode n (3 * n / 4)), ?_, ?_⟩⟩
  · simp [AsmLine.assemble, AsmLine.expand, hn]
  · exact decodeOfEncodedCommand _ (Instr.wellFormed_encode.2 (by omega))
  · simp [AsmLine.assemble, AsmLine.expand, Nat.not_le.2 hn]
  · simp [AsmLine.assemble, AsmLine.expand, Config.maxLen_eq, hn]
  · exact decodeOfEncodedCommand _ (Instr.wellFormed_decode.2 (by omega))

/-- Settles O7: the word is in no row of the table, so the decoder rejects it, and the step is the fault entry. -/
theorem illegalWordFaults : Obligations.IllegalWordFaults := by
  unfold Obligations.IllegalWordFaults
  intro s w din rest hs hf hillegal
  cases hd : decodeCmd w with
  | error e => exact step_issue_illegal hs hf hd
  | ok i =>
    have htable := (decodeCommandTable w i).1 hd
    dsimp only at htable hillegal
    omega

/-! ### The two ROMs (R56 to R59) -/

/-- The closed form of `ALPHA` (R58). -/
theorem alpha_toNat : ∀ v : Sym, (alpha v).toNat =
    if v.toNat = 0 then 0x2E else if v.toNat = 1 then 0x2F
    else if v.toNat ≤ 27 then v.toNat + 0x3F else if v.toNat ≤ 53 then v.toNat + 0x45 else v.toNat - 0x06 := by
  decide

/-- `REV(c)` in numbers: that of the symbol value whose character is c (R18). -/
theorem rev_toNat_eq_some {c : Byte} {k : Nat} :
    (rev c).map BitVec.toNat = some k ↔ ∃ v : Sym, v.toNat = k ∧ (alpha v).toNat = c.toNat := by
  simp only [Option.map_eq_some_iff, rev_eq_some, BitVec.toNat_inj, and_comm]

/-- Settles O13: `ALPHA` is read off its 64 entries, and its closed form, run by run, determines that of `REV`. -/
theorem romsMatchClosedForms : Obligations.RomsMatchClosedForms := by
  unfold Obligations.RomsMatchClosedForms
  refine ⟨alpha_toNat, fun c => Option.ext fun k => rev_toNat_eq_some.trans ⟨?_, fun h => ?_⟩⟩
  · rintro ⟨v, rfl, hv⟩
    have hlt : v.toNat < 64 := v.isLt
    rw [alpha_toNat] at hv
    split_ifs at hv
    all_goals grind
  · have hk : k < 64 := by grind
    have hv : (BitVec.ofNat 6 k).toNat = k := Nat.mod_eq_of_lt hk
    refine ⟨BitVec.ofNat 6 k, hv, ?_⟩
    rw [alpha_toNat, hv]
    split_ifs at h
    all_goals grind

/-! ### The text that FORMAT writes (R63 to R65, R93) -/

theorem inAlphabet_alpha (v : Sym) : inAlphabet (alpha v) = true := by
  rw [inAlphabet, rev_alpha, Option.isSome_some]

/-- Every character of an encoding was read from `ALPHA` (R80). -/
theorem inAlphabet_of_mem_encBytes {b : List Byte} : ∀ c ∈ encBytes b, inAlphabet c = true := by
  induction b using encBytes.induct with
  | case1 x y z rest ih => simpa [encBytes, encGroup3, inAlphabet_alpha] using ih
  | case2 x y => simp [encBytes, encGroup2, inAlphabet_alpha]
  | case3 x => simp [encBytes, encGroup1, inAlphabet_alpha]
  | case4 => simp [encBytes]

/-- The alphabet is printable ASCII, by the closed form of `ALPHA` (R58). -/
theorem printable_of_inAlphabet {c : Byte} (h : inAlphabet c = true) : 0x20 ≤ c.toNat ∧ c.toNat ≤ 0x7E := by
  obtain ⟨v, hv⟩ := Option.isSome_iff_exists.1 h
  have hlt : v.toNat < 64 := v.isLt
  rw [← alpha_of_rev hv, alpha_toNat]
  split_ifs <;> omega

theorem printable_of_mem_wfText {wf c : Byte} (hwf : wf.toNat ≤ 99) (h : c ∈ wfText wf) :
    0x20 ≤ c.toNat ∧ c.toNat ≤ 0x7E := by
  rcases List.mem_pair.1 h with rfl | rfl
  all_goals
    rw [BitVec.toNat_ofNat]
    omega

theorem slice_append_append {α : Type} {a b c : List α} {i j : Nat} (hi : a.length = i) (hj : b.length = j - i) :
    slice (a ++ b ++ c) i j = b := by
  rw [slice, List.append_assoc, List.drop_left' hi, List.take_left' hj]

theorem slice_append_end {α : Type} {a b : List α} {i j : Nat} (hi : a.length = i) (hj : b.length = j - i) :
    slice (a ++ b) i j = b := by
  simpa using slice_append_append (c := []) hi hj

/-- Settles O33: the sizes of the record put each field at its offset, and its bytes are printable field by field. -/
theorem formattedTextLayout : Obligations.FormattedTextLayout := by
  unfold Obligations.FormattedTextLayout
  intro r hr hwf
  have hsalt : (encBytes r.salt).length = 22 := by rw [encBytes_length, hr.1]; rfl
  have hdigest : (encBytes r.digest).length = 31 := by rw [encBytes_length, hr.2]; rfl
  refine ⟨formatText_length hr, rfl, rfl, rfl, rfl, slice_append_append rfl hsalt, slice_append_end ?_ hdigest, ?_⟩
  · rw [List.length_append, hsalt]
    rfl
  · simp only [formatText, List.forall_mem_append]
    refine ⟨⟨⟨⟨by decide, fun c => printable_of_mem_wfText hwf⟩, by decide⟩, fun c hc => ?_⟩, fun c hc => ?_⟩
    · exact printable_of_inAlphabet (inAlphabet_of_mem_encBytes c hc)
    · exact printable_of_inAlphabet (inAlphabet_of_mem_encBytes c hc)

/-! ### The status codes of each command (R54, R108) -/

theorem code_dec_cases (e : DecodeError) : (ErrorKind.dec e).code = 1 ∨ (ErrorKind.dec e).code = 2 := by
  cases e <;> decide

theorem code_parse_cases (e : ParseError) :
    (ErrorKind.parse e).code = 3 ∨ (ErrorKind.parse e).code = 4 ∨ (ErrorKind.parse e).code = 5 ∨
      (ErrorKind.parse e).code = 6 ∨ (ErrorKind.parse e).code = 7 := by
  cases e <;> decide

/-- A command that returned a status was taken: FAULT was 0, and DIN had `L_in(cmd)` bytes. -/
theorem taken_of_status {i : Instr} {s t : State} {v : BitVec 4} (h : exec i s = .next t) (hv : t.status = some v) :
    s.fault = false ∧ s.din.length = lIn i := by
  rcases exec_next h with ⟨-, rfl⟩ | ⟨hf, -⟩
  · cases hv
  · refine ⟨hf, by_contra fun hl => ?_⟩
    rw [exec_dinLength hf hl] at h
    cases h

section Status

variable {i : Instr} {s t : State} {v : BitVec 4} (h : exec i s = .next t) (hv : t.status = some v)
include h hv

theorem status_of_success {b : List Byte} {valid : Option Bool} (he : exec i s = .next (s.withSuccess b valid)) :
    v = statusOk := by
  cases h.symm.trans he
  exact (Option.some.inj hv).symm

theorem status_of_error {k : ErrorKind} {len : Nat} {valid : Option Bool}
    (he : exec i s = .next (s.withError k len valid)) : v = k.code := by
  cases h.symm.trans he
  exact (Option.some.inj hv).symm

/-- A fault returns no status (R110). -/
theorem no_status_of_fault {c : Cause} (he : exec i s = .next (s.withFault c)) : False := by
  cases h.symm.trans he
  cases hv

end Status

/-- Settles O45, command by command: the ways it can end, and the codes of the kinds of error among them. -/
theorem statusCodesByCommand : Obligations.StatusCodesByCommand := by
  unfold Obligations.StatusCodesByCommand
  intro i s t v h hv
  obtain ⟨hf, hl⟩ := taken_of_status h hv
  cases i with
  | enc6 =>
    obtain ⟨x, hd⟩ := List.length_eq_one_iff.1 hl
    rcases lt_or_ge x.toNat 64 with hx | hx
    · exact status_of_success h hv (exec_enc6_success hf hd hx)
    · exact (no_status_of_fault h hv (exec_enc6_fault hf hd hx)).elim
  | dec8 =>
    obtain ⟨c, hd⟩ := List.length_eq_one_iff.1 hl
    cases hc : rev c with
    | some x => exact .inl (status_of_success h hv (exec_dec8_success hf hd hc))
    | none => exact .inr (status_of_error h hv (exec_dec8_error hf hd hc))
  | encode n m =>
    by_cases hm : m = encLen n
    · exact status_of_success h hv (exec_encode_success hf hl hm)
    · exact (no_status_of_fault h hv (exec_encode_fault hf hl hm)).elim
  | decode n m =>
    by_cases hm : m = decLen n
    · cases hb : decText .streamOrder s.din with
      | ok b => exact .inl (status_of_success h hv (exec_decode_success hf hl hm hb))
      | error e =>
        rw [status_of_error h hv (exec_decode_error hf hl hm hb)]
        exact .inr (code_dec_cases e)
    · exact (no_status_of_fault h hv (exec_decode_fault hf hl hm)).elim
  | format =>
    obtain ⟨r, hr, hd⟩ := exists_record_of_length hl
    have he := exec_format_eq hf hr hd
    split at he
    · exact status_of_success h hv he
    · exact (no_status_of_fault h hv he).elim
  | parse n =>
    cases hr : parseText Config.params s.din with
    | ok r => exact .inl (status_of_success h hv (exec_parse_success hf hl hr))
    | error k =>
      rw [status_of_error h hv (exec_parse_error hf hl hr)]
      exact .inr (code_parse_cases k)

end Sys2Proof.Machine

/-! The symbol units ENC6 and DEC8, and what `dec_text` answers (40_symbol_codec.md). -/

namespace Sys2Proof.Machine

/-! ### The symbol units (R70 to R72) -/

/-- The value byte of DEC8 is its symbol value as a number (R71). -/
theorem symByte_eq_ofNat (v : Sym) : symByte v = BitVec.ofNat 8 v.toNat :=
  (BitVec.ofNat_toNat 8 v).symm

/-- A value byte is in the range of ENC6, whose operand is again the symbol value (R70). -/
theorem symByte_toNat (v : Sym) : (symByte v).toNat = v.toNat :=
  BitVec.toNat_setWidth_of_le (by decide)

/-- `ALPHA` is injective, since `REV` undoes it (R19). -/
theorem alpha_injective : Function.Injective alpha := fun v w h =>
  Option.some.inj ((rev_alpha v).symm.trans (h ▸ rev_alpha w))

/-- The alphabet is the image of `ALPHA` (R18, R42). -/
theorem inAlphabet_iff_exists_alpha {c : Byte} : inAlphabet c = true ↔ ∃ v, alpha v = c := by
  rw [inAlphabet, Option.isSome_iff_exists]
  exact exists_congr fun _ => rev_eq_some

/-- Success of DEC8 determines its input: it is the character of the value byte (R71). -/
theorem exists_rev_of_exec_dec8_success {s t : State} {c x : Byte} (hf : s.fault = false) (hd : s.din = [c])
    (h : exec .dec8 s = .next t) (ht : t.answer = .success) (hx : t.dout.read 0 = some x) :
    ∃ v, rev c = some v ∧ x = symByte v := by
  cases hc : rev c with
  | none =>
    cases h.symm.trans (exec_dec8_error hf hd hc)
    cases ht
  | some v =>
    cases h.symm.trans (exec_dec8_success hf hd hc)
    cases hx
    exact ⟨v, rfl, rfl⟩

/-- ENC6 of the value byte of a symbol answers the symbol's character (R72). -/
theorem exec_enc6_symByte {s : State} {v : Sym} (hf : s.fault = false) (hd : s.din = [symByte v]) :
    exec .enc6 s = .next (s.withSuccess [alpha v] none) := by
  have h := exec_enc6_success hf hd (by rw [symByte_toNat]; exact v.isLt)
  rwa [symByte_toNat, BitVec.ofNat_toNat, BitVec.setWidth_eq] at h

/-- Settles O14: the two sides of 64 are the two effects of ENC6. -/
theorem enc6EncodesOrFaults : Obligations.Enc6EncodesOrFaults := by
  unfold Obligations.Enc6EncodesOrFaults
  intro s x hf hd
  exact ⟨exec_enc6_success hf hd, exec_enc6_fault hf hd⟩

/-- Settles O15: `REV` of the character decides between the two effects of DEC8. -/
theorem dec8DecodesOrRejects : Obligations.Dec8DecodesOrRejects := by
  unfold Obligations.Dec8DecodesOrRejects
  intro s c hf hd
  refine ⟨fun v hv => ?_, exec_dec8_error hf hd⟩
  rw [← symByte_eq_ofNat]
  exact exec_dec8_success hf hd hv

/-- Settles O16: each unit answers the table entry of its input, and the two tables are inverse (R19). -/
theorem symbolUnitsAreInverse : Obligations.SymbolUnitsAreInverse := by
  unfold Obligations.SymbolUnitsAreInverse
  refine ⟨fun s v hf => ?_, fun s t c x hf h ht hx => ?_, alpha_injective, fun c => inAlphabet_iff_exists_alpha⟩
  · rw [← symByte_eq_ofNat]
    exact exec_dec8_success (s := { s with din := [alpha v] }) hf rfl (rev_alpha v)
  · obtain ⟨v, hv, rfl⟩ := exists_rev_of_exec_dec8_success (s := { s with din := [c] }) hf rfl h ht hx
    rw [← alpha_of_rev hv]
    exact exec_enc6_symByte (s := { s with din := [symByte v] }) hf rfl

/-! ### What `dec_text` answers (R73, R77) -/

theorem decText_streamOrder (t : List Byte) : decText .streamOrder t = decGroups t :=
  if_neg fun h => nomatch h.1

/-- All four characters of a full group are looked up. -/
theorem take_lookedUp_group (c0 c1 c2 c3 : Byte) (rest : List Byte) :
    (c0 :: c1 :: c2 :: c3 :: rest).take (lookedUp (c0 :: c1 :: c2 :: c3 :: rest).length) =
      c0 :: c1 :: c2 :: c3 :: rest.take (lookedUp rest.length) := by
  have hn : lookedUp (rest.length + 4) = lookedUp rest.length + 4 := by
    unfold lookedUp
    split_ifs <;> omega
  simp [hn]

/-- Where the length is not 1 modulo 4, every character is looked up. -/
theorem take_lookedUp_of_ne {t : List Byte} (h : t.length % 4 ≠ 1) : t.take (lookedUp t.length) = t := by
  rw [lookedUp, if_neg h, List.take_length]

/-- `dec_text` passes the characters exactly where `REV` is `some` at each one it looks up: the induction goes group
by group, and a group is rejected exactly where one of its characters is (R77). -/
theorem decGroups_ne_invalidCharacter {t : List Byte} :
    decGroups t ≠ .error .invalidCharacter ↔ ∀ c ∈ t.take (lookedUp t.length), inAlphabet c = true := by
  simp only [inAlphabet, Option.isSome_iff_exists]
  induction t using decGroups.induct with
  | case1 c0 c1 c2 c3 rest v0 v1 v2 v3 h3 h2 h1 h0 bs hrest ih
  | case2 c0 c1 c2 c3 rest v0 v1 v2 v3 h3 h2 h1 h0 e hrest ih =>
    rw [take_lookedUp_group]
    simpa [decGroups, h0, h1, h2, h3, hrest] using ih
  | case3 c0 c1 c2 c3 rest hbad =>
    rw [take_lookedUp_group]
    simpa [decGroups] using fun v0 h0 v1 h1 v2 h2 v3 h3 => (hbad v0 v1 v2 v3 h0 h1 h2 h3).elim
  | case4 c0 c1 c2 v0 v1 v2 h2 h1 h0 => simp [decGroups, h0, h1, h2, lookedUp]
  | case5 c0 c1 c2 hbad => simpa [decGroups, lookedUp] using fun v0 h0 v1 h1 v2 h2 => hbad v0 v1 v2 h0 h1 h2
  | case6 c0 c1 v0 v1 h1 h0 => simp [decGroups, h0, h1, lookedUp]
  | case7 c0 c1 hbad => simpa [decGroups, lookedUp] using fun v0 h0 v1 h1 => hbad v0 v1 h0 h1
  | case8 c => simp [decGroups, lookedUp]
  | case9 => simp [decGroups]

theorem decGroups_eq_invalidCharacter {t : List Byte} :
    decGroups t = .error .invalidCharacter ↔ ∃ c ∈ t.take (lookedUp t.length), inAlphabet c = false := by
  rw [← not_iff_not, ← ne_eq, decGroups_ne_invalidCharacter]
  simp

/-- What `dec_text` can answer: a bad character, or else what the length of the text says (R77). -/
theorem decGroups_cases (t : List Byte) :
    decGroups t = .error .invalidCharacter ∨ (t.length % 4 = 1 ∧ decGroups t = .error .length) ∨
      (t.length % 4 ≠ 1 ∧ ∃ b, decGroups t = .ok b) := by
  induction t using decGroups.induct with
  | case1 c0 c1 c2 c3 rest v0 v1 v2 v3 h3 h2 h1 h0 bs hrest ih
  | case2 c0 c1 c2 c3 rest v0 v1 v2 v3 h3 h2 h1 h0 e hrest ih =>
    simpa [decGroups, h0, h1, h2, h3, hrest, Nat.add_assoc] using ih
  | case3 | case5 | case7 => exact .inl (by simp [decGroups])
  | case4 c0 c1 c2 v0 v1 v2 h2 h1 h0 =>
    exact .inr (.inr ⟨by simp, decGroup3 v0 v1 v2, by simp only [decGroups, h0, h1, h2]⟩)
  | case6 c0 c1 v0 v1 h1 h0 => exact .inr (.inr ⟨by simp, decGroup2 v0 v1, by simp only [decGroups, h0, h1]⟩)
  | case8 => exact .inr (.inl ⟨rfl, rfl⟩)
  | case9 => exact .inr (.inr ⟨by simp, _, rfl⟩)

theorem decGroups_eq_length {t : List Byte} :
    decGroups t = .error .length ↔
      t.length % 4 = 1 ∧ ∀ c ∈ t.take (lookedUp t.length), inAlphabet c = true := by
  rw [← decGroups_ne_invalidCharacter]
  rcases decGroups_cases t with h | ⟨hn, h⟩ | ⟨hn, b, h⟩
  all_goals simp [*]

theorem decGroups_eq_ok {t : List Byte} :
    (∃ b, decGroups t = .ok b) ↔ t.length % 4 ≠ 1 ∧ ∀ c ∈ t, inAlphabet c = true := by
  have hiff : (∃ b, decGroups t = .ok b) ↔ t.length % 4 ≠ 1 ∧ decGroups t ≠ .error .invalidCharacter := by
    rcases decGroups_cases t with h | ⟨hn, h⟩ | ⟨hn, b, h⟩
    all_goals simp [*]
  rw [hiff, decGroups_ne_invalidCharacter]
  exact and_congr_right fun hn => by rw [take_lookedUp_of_ne hn]

/-- Settles O24: the characters looked up decide first, then the length of the text. -/
theorem decodeAnswerFromCharacters : Obligations.DecodeAnswerFromCharacters := by
  unfold Obligations.DecodeAnswerFromCharacters
  intro t
  rw [decText_streamOrder]
  exact ⟨decGroups_eq_invalidCharacter, decGroups_eq_length, decGroups_eq_ok⟩

end Sys2Proof.Machine

/-! The group codec: the effects of ENCODE and DECODE, and which texts decode to the same bytes
(41_group_codec.md). -/

namespace Sys2Proof.Machine

/-! ### The commands (R80, R81, R84) -/

/-- Settles O17. -/
theorem encodeCommandEffect : Obligations.EncodeCommandEffect := by
  unfold Obligations.EncodeCommandEffect
  exact fun s n m hf hl => ⟨exec_encode_success hf hl, exec_encode_fault hf hl⟩

/-- Settles O18: a length that came from a word has 12 bits, and the exact length of the output has more. -/
theorem longEncodeAlwaysFaults : Obligations.LongEncodeAlwaysFaults := by
  unfold Obligations.LongEncodeAlwaysFaults
  intro s w n m hd hn hf hl
  have hm : m ≤ 4095 := (Instr.wellFormed_encode.1 (wellFormed_of_decodeCmd hd)).2
  refine exec_encode_fault hf hl ?_
  rw [encLen]
  omega

/-- Settles O19. -/
theorem encodedBytesAreInAlphabet : Obligations.EncodedBytesAreInAlphabet := by
  unfold Obligations.EncodedBytesAreInAlphabet
  exact fun b => inAlphabet_of_mem_encBytes

/-- Settles O23. -/
theorem decodeCommandEffect : Obligations.DecodeCommandEffect := by
  unfold Obligations.DecodeCommandEffect
  exact fun s n m hf hl =>
    ⟨fun b => exec_decode_success hf hl, fun e => exec_decode_error hf hl, exec_decode_fault hf hl⟩

/-- Settles O27: no bytes fill no groups, and 0 is the exact output length of both commands. -/
theorem emptyInputCodes : Obligations.EmptyInputCodes := by
  unfold Obligations.EmptyInputCodes
  have hdec (o : DecodeErrOrder) : decText o [] = .ok [] := decText_encBytes o []
  refine ⟨rfl, hdec, fun s hf hd => ?_⟩
  have hl : s.din.length = 0 := by rw [hd]; rfl
  have henc := exec_encode_success (m := 0) hf hl rfl
  rw [hd] at henc
  exact ⟨henc, exec_decode_success hf hl rfl (by rw [hd, hdec])⟩

/-! ### The two error orders (R77 to R79) -/

/-- Where a single character trails, the characters looked up are those in full groups (R40, R77). -/
theorem lookedUp_eq_inFullGroups {n : Nat} (h : n % 4 = 1) : lookedUp n = inFullGroups n := by
  rw [lookedUp, if_pos h, inFullGroups, h]

/-- Settles O20: the two lengths are R79's, and a single trailing character leaves the full groups to be looked up. -/
theorem codecOutputLengths : Obligations.CodecOutputLengths := by
  unfold Obligations.CodecOutputLengths
  refine ⟨encBytes_length, fun o t b => decText_length, fun t => ?_⟩
  rw [decText_streamOrder, decGroups_eq_length]
  exact and_congr_right fun hn => by rw [lookedUp_eq_inFullGroups hn]

theorem decText_lengthFirst_of_eq {t : List Byte} (h : t.length % 4 = 1) :
    decText .lengthFirst t = .error .length :=
  if_pos ⟨rfl, h⟩

theorem decText_lengthFirst_of_ne {t : List Byte} (h : t.length % 4 ≠ 1) :
    decText .lengthFirst t = decText .streamOrder t :=
  (if_neg fun hand => h hand.2).trans (decText_streamOrder t).symm

/-- With a single trailing character StreamOrder answers DEC_LENGTH unless it meets a bad character first. -/
theorem decGroups_ne_length_of_eq {t : List Byte} (h : t.length % 4 = 1) :
    decGroups t ≠ .error .length ↔ decGroups t = .error .invalidCharacter := by
  rcases decGroups_cases t with hbad | ⟨-, hlen⟩ | ⟨hne, -⟩
  · simp [hbad]
  · simp [hlen]
  · exact absurd h hne

/-- Settles O25: the orders can differ only with a single trailing character, where LengthFirst answers
DEC_LENGTH at once and StreamOrder looks up the full groups first. -/
theorem decodeErrorOrdersCompared : Obligations.DecodeErrorOrdersCompared := by
  unfold Obligations.DecodeErrorOrdersCompared
  intro t
  refine ⟨decText_lengthFirst_of_eq, decText_lengthFirst_of_ne, ?_⟩
  by_cases h : t.length % 4 = 1
  · rw [decText_lengthFirst_of_eq h, decText_streamOrder, ne_comm, decGroups_ne_length_of_eq h,
      decGroups_eq_invalidCharacter, lookedUp_eq_inFullGroups h]
    exact (and_iff_right h).symm
  · exact iff_of_false (not_not.2 (decText_lengthFirst_of_ne h)) fun hand => h hand.1

/-! ### The discarded bits of a last symbol (R61, R82, R86) -/

/-- The symbol value that ends a text of n characters, with its discarded bits cleared (R61). -/
def clearDiscarded (n : Nat) (v : Sym) : Sym :=
  if n % 4 = 2 then v.extractLsb' 4 2 ++ 0#4
  else if n % 4 = 3 then v.extractLsb' 2 4 ++ 0#2
  else v

/-- The high part of a vector followed by zeros is the vector rounded down. -/
theorem toNat_high_append_zero {k l : Nat} (x : BitVec (k + l)) :
    (x.extractLsb' l k ++ 0#l).toNat = x.toNat / 2 ^ l * 2 ^ l := by
  have hlt : x.toNat / 2 ^ l < 2 ^ k := Nat.div_lt_of_lt_mul (by rw [← Nat.pow_add, Nat.add_comm l]; exact x.isLt)
  simp [BitVec.toNat_append, Nat.shiftRight_eq_div_pow, Nat.mod_eq_of_lt hlt, Nat.shiftLeft_eq]

theorem append_zero_inj {k l : Nat} {x y : BitVec k} : x ++ 0#l = y ++ 0#l ↔ x = y := by
  refine ⟨fun h => ?_, fun h => h ▸ rfl⟩
  have hhigh := congrArg (BitVec.extractLsb' l k) h
  rwa [BitVec.extractLsb'_append_eq_left, BitVec.extractLsb'_append_eq_left] at hhigh

/-- A full group before the last character takes no part in what is discarded. -/
theorem clearDiscarded_add_four (n : Nat) (v : Sym) : clearDiscarded (n + 4) v = clearDiscarded n v := by
  simp [clearDiscarded]

theorem clearDiscarded_toNat (n : Nat) (v : Sym) :
    (clearDiscarded n v).toNat =
      if n % 4 = 2 then v.toNat / 16 * 16 else if n % 4 = 3 then v.toNat / 4 * 4 else v.toNat := by
  unfold clearDiscarded
  split_ifs
  · exact toNat_high_append_zero (k := 2) (l := 4) v
  · exact toNat_high_append_zero (k := 4) (l := 2) v
  · rfl

/-- Two symbol values have the same kept bits where clearing the discarded ones makes them equal. -/
theorem keptBits_eq_iff {n : Nat} {v w : Sym} :
    keptBits n v = keptBits n w ↔ clearDiscarded n v = clearDiscarded n w := by
  rw [BitVec.toNat_eq, clearDiscarded_toNat, clearDiscarded_toNat, keptBits, keptBits]
  split_ifs <;> omega

theorem discardedZero_iff {n : Nat} {v : Sym} : discardedZero n v = true ↔ clearDiscarded n v = v := by
  rw [BitVec.toNat_eq, clearDiscarded_toNat, discardedZero]
  split_ifs
  · rw [beq_iff_eq, BitVec.toNat_eq, BitVec.extractLsb'_toNat, Nat.shiftRight_zero, BitVec.toNat_ofNat]
    omega
  · rw [beq_iff_eq, BitVec.toNat_eq, BitVec.extractLsb'_toNat, Nat.shiftRight_zero, BitVec.toNat_ofNat]
    omega
  · exact iff_of_true rfl rfl

/-! The last byte of a remainder takes nothing from the discarded bits (R75, R82). -/

@[simp] theorem byte0_high (v0 v1 : Sym) (low : BitVec 4) : byte0 v0 (v1.extractLsb' 4 2 ++ low) = byte0 v0 v1 := by
  rw [byte0, BitVec.extractLsb'_append_eq_left, byte0]

@[simp] theorem byte1_high (v1 v2 : Sym) (low : BitVec 2) : byte1 v1 (v2.extractLsb' 2 4 ++ low) = byte1 v1 v2 := by
  rw [byte1, BitVec.extractLsb'_append_eq_left, byte1]

/-- Clearing the discarded bits of the last symbol changes nothing in the answer of `dec_text` (R82). The recursion
goes group by group, over characters that need not be in the alphabet. -/
theorem decGroups_clearDiscarded (v : Sym) : ∀ t : List Byte,
    decGroups (t ++ [alpha (clearDiscarded (t.length + 1) v)]) = decGroups (t ++ [alpha v])
  | [] => rfl
  | [c0] => by cases h0 : rev c0 <;> simp [clearDiscarded, decGroups, decGroup2, h0]
  | [c0, c1] => by
    cases h0 : rev c0 <;> cases h1 : rev c1 <;> simp [clearDiscarded, decGroups, decGroup3, h0, h1]
  | [c0, c1, c2] => by simp [clearDiscarded]
  | c0 :: c1 :: c2 :: c3 :: rest => by
    have hn : (c0 :: c1 :: c2 :: c3 :: rest).length + 1 = rest.length + 1 + 4 := rfl
    simp only [hn, clearDiscarded_add_four, List.cons_append, decGroups, decGroups_clearDiscarded v rest]

/-! ### Encoding the decoded bytes (R87)

A symbol cut out of the bytes it was put into is the symbol itself (R60). -/

@[simp] theorem sym0_byte0 (v0 v1 : Sym) : sym0 (byte0 v0 v1) = v0 :=
  BitVec.extractLsb'_append_eq_left

@[simp] theorem byte0_low (v0 v1 : Sym) : (byte0 v0 v1).extractLsb' 0 2 = v1.extractLsb' 4 2 :=
  BitVec.extractLsb'_append_eq_right

@[simp] theorem byte1_low (v1 v2 : Sym) : (byte1 v1 v2).extractLsb' 0 4 = v2.extractLsb' 2 4 :=
  BitVec.extractLsb'_append_eq_right

@[simp] theorem sym1_byte0_byte1 (v0 v1 v2 : Sym) : sym1 (byte0 v0 v1) (byte1 v1 v2) = v1 := by
  rw [sym1, byte0_low, byte1, BitVec.extractLsb'_append_eq_left]
  exact BitVec.extractLsb'_append_extractLsb' (w := 2) (len := 4)

@[simp] theorem sym2_byte1_byte2 (v1 v2 v3 : Sym) : sym2 (byte1 v1 v2) (byte2 v2 v3) = v2 := by
  rw [sym2, byte1_low, byte2, BitVec.extractLsb'_append_eq_left]
  exact BitVec.extractLsb'_append_extractLsb' (w := 4) (len := 2)

@[simp] theorem sym3_byte2 (v2 v3 : Sym) : sym3 (byte2 v2 v3) = v3 :=
  BitVec.extractLsb'_append_eq_right

theorem encBytes_decGroup4_append (v0 v1 v2 v3 : Sym) (b : List Byte) :
    encBytes (decGroup4 v0 v1 v2 v3 ++ b) = alpha v0 :: alpha v1 :: alpha v2 :: alpha v3 :: encBytes b := by
  simp [decGroup4, encBytes, encGroup3]

/-- A text of alphabet characters decodes to bytes whose encoding is that text with the discarded bits of its last
symbol cleared. The recursion goes group by group. -/
theorem encBytes_of_decGroups_symbols : ∀ {vs : List Sym} {v : Sym} {b : List Byte},
    decGroups (vs.map alpha ++ [alpha v]) = .ok b →
      encBytes b = vs.map alpha ++ [alpha (clearDiscarded (vs.length + 1) v)]
  | [], v, b, h => by cases h
  | [v0], v, b, h => by
    obtain rfl : decGroup2 v0 v = b := by simpa [decGroups] using h
    simp [decGroup2, encBytes, encGroup1, clearDiscarded]
  | [v0, v1], v, b, h => by
    obtain rfl : decGroup3 v0 v1 v = b := by simpa [decGroups] using h
    simp [decGroup3, encBytes, encGroup2, clearDiscarded]
  | [v0, v1, v2], v, b, h => by
    obtain rfl : decGroup4 v0 v1 v2 v ++ [] = b := by simpa [decGroups] using h
    rw [encBytes_decGroup4_append]
    simp [encBytes, clearDiscarded]
  | v0 :: v1 :: v2 :: v3 :: rest, v, b, h => by
    have hn : (v0 :: v1 :: v2 :: v3 :: rest).length + 1 = rest.length + 1 + 4 := rfl
    cases hrest : decGroups (rest.map alpha ++ [alpha v]) with
    | error e => simp [decGroups, hrest] at h
    | ok bs =>
      obtain rfl : decGroup4 v0 v1 v2 v3 ++ bs = b := by simpa [decGroups, hrest] using h
      rw [encBytes_decGroup4_append, encBytes_of_decGroups_symbols hrest, hn, clearDiscarded_add_four]
      rfl

theorem append_alpha_inj {p q : List Byte} {v w : Sym} :
    p ++ [alpha v] = q ++ [alpha w] ↔ p = q ∧ v = w := by
  refine ⟨fun h => ?_, by rintro ⟨rfl, rfl⟩; rfl⟩
  obtain ⟨hp, hlast⟩ := List.append_inj' h rfl
  exact ⟨hp, alpha_injective (List.singleton_injective hlast)⟩

theorem exists_map_alpha {t : List Byte} (h : ∀ c ∈ t, inAlphabet c = true) : ∃ vs : List Sym, vs.map alpha = t := by
  have hmem : t ∈ Set.range (List.map alpha) := by
    rw [Set.range_list_map]
    exact fun c hc => inAlphabet_iff_exists_alpha.1 (h c hc)
  exact hmem

/-- What a text that decodes is, and what the encoding of its bytes is: the text with the discarded bits of its last
symbol cleared (R87). -/
theorem decGroups_ok_cases {t b : List Byte} (h : decGroups t = .ok b) :
    (t = [] ∧ encBytes b = []) ∨
      ∃ p v, t = p ++ [alpha v] ∧ encBytes b = p ++ [alpha (clearDiscarded (p.length + 1) v)] := by
  obtain ⟨-, halpha⟩ := decGroups_eq_ok.1 ⟨b, h⟩
  obtain ⟨vs, rfl⟩ := exists_map_alpha halpha
  rcases List.eq_nil_or_concat vs with rfl | ⟨ws, v, rfl⟩
  · cases h
    exact .inl ⟨rfl, rfl⟩
  · rw [List.concat_eq_append, List.map_append, List.map_singleton] at h ⊢
    exact .inr ⟨ws.map alpha, v, rfl, by rw [List.length_map]; exact encBytes_of_decGroups_symbols h⟩

/-- So all texts that decode to `b` have the length of one text, and all but its last character (R85). -/
theorem length_dropLast_encBytes_of_decGroups {t b : List Byte} (h : decGroups t = .ok b) :
    (encBytes b).length = t.length ∧ (encBytes b).dropLast = t.dropLast := by
  rcases decGroups_ok_cases h with ⟨rfl, hb⟩ | ⟨p, v, rfl, hb⟩
  all_goals simp [hb]

/-! ### Canonical texts (R86, R87) -/

theorem lastDiscardedZero_append_alpha (p : List Byte) (v : Sym) :
    lastDiscardedZero (p ++ [alpha v]) = discardedZero (p.length + 1) v := by
  simp [lastDiscardedZero]

/-- Of the texts that decode to `b` the one whose discarded bits are zero is `enc_bytes` of it. -/
theorem encBytes_eq_iff_of_decGroups {t b : List Byte} (h : decGroups t = .ok b) :
    encBytes b = t ↔ lastDiscardedZero t = true := by
  rcases decGroups_ok_cases h with ⟨rfl, hb⟩ | ⟨p, v, rfl, hb⟩
  · exact iff_of_true hb rfl
  · rw [hb, lastDiscardedZero_append_alpha, discardedZero_iff]
    exact append_alpha_inj.trans (and_iff_right rfl)

theorem canonicalText_iff {t b : List Byte} (h : decText .streamOrder t = .ok b) :
    CanonicalText t ↔ encBytes b = t := by
  rw [encBytes_eq_iff_of_decGroups (decGroups_of_decText h)]
  exact and_iff_right ⟨b, h⟩

theorem canonicalText_encBytes (b : List Byte) : CanonicalText (encBytes b) :=
  (canonicalText_iff (decText_encBytes _ b)).2 rfl

/-- Settles O30: a canonical text is the encoding of its own bytes. -/
theorem canonicalTextsAreEncodings : Obligations.CanonicalTextsAreEncodings := by
  unfold Obligations.CanonicalTextsAreEncodings
  refine fun t => ⟨fun h => ?_, ?_⟩
  · obtain ⟨b, hb⟩ := h.1
    exact ⟨b, ((canonicalText_iff hb).1 h).symm⟩
  · rintro ⟨b, rfl⟩
    exact canonicalText_encBytes b

/-- Settles O31: the encoding of the bytes clears the discarded bits of the last character and nothing else. -/
theorem reencodingCanonicalises : Obligations.ReencodingCanonicalises := by
  unfold Obligations.ReencodingCanonicalises
  intro t b h
  refine ⟨(canonicalText_iff h).1, fun hc => ⟨canonicalText_encBytes b, decText_encBytes _ b, ?_, ?_⟩⟩
  · exact fun heq => hc ((canonicalText_iff h).2 heq)
  · exact length_dropLast_encBytes_of_decGroups (decGroups_of_decText h)

/-! ### The texts that decode to the same bytes (R82, R85) -/

theorem encBytes_of_decGroups_append {p b : List Byte} {v : Sym} (h : decGroups (p ++ [alpha v]) = .ok b) :
    encBytes b = p ++ [alpha (clearDiscarded (p.length + 1) v)] := by
  rcases decGroups_ok_cases h with ⟨hnil, -⟩ | ⟨q, w, heq, hb⟩
  · simp at hnil
  · obtain ⟨rfl, rfl⟩ := append_alpha_inj.1 heq
    exact hb

/-- The texts that decode to the same bytes as a given one are those that differ from it at most in the discarded
bits of the last character (R82, R85). -/
theorem decGroups_eq_ok_iff_of_append {p u b : List Byte} {v : Sym} (h : decGroups (p ++ [alpha v]) = .ok b) :
    decGroups u = .ok b ↔
      ∃ w, clearDiscarded (p.length + 1) w = clearDiscarded (p.length + 1) v ∧ p ++ [alpha w] = u := by
  have henc := encBytes_of_decGroups_append h
  constructor
  · intro hu
    rcases decGroups_ok_cases hu with ⟨-, hb⟩ | ⟨q, w, rfl, hb⟩
    · simp [hb] at henc
    · obtain ⟨rfl, hw⟩ := append_alpha_inj.1 (hb.symm.trans henc)
      exact ⟨w, hw, rfl⟩
  · rintro ⟨w, hw, rfl⟩
    rw [← decGroups_clearDiscarded, hw, decGroups_clearDiscarded, h]

/-- Settles O28: the answer for a last character is that for its kept bits, and the bytes determine those. -/
theorem discardedBitsAreIgnored : Obligations.DiscardedBitsAreIgnored := by
  unfold Obligations.DiscardedBitsAreIgnored
  refine ⟨fun t c c' v v' hc hc' => ?_, fun t x hx _ => ?_⟩
  · obtain rfl := alpha_of_rev hc
    obtain rfl := alpha_of_rev hc'
    simp only [decText_streamOrder, keptBits_eq_iff]
    refine ⟨fun hkept => ?_, fun b hb hb' => ?_⟩
    · rw [← decGroups_clearDiscarded, hkept, decGroups_clearDiscarded]
    · obtain ⟨w, hw, heq⟩ := (decGroups_eq_ok_iff_of_append hb).1 hb'
      obtain ⟨-, rfl⟩ := append_alpha_inj.1 heq
      exact hw.symm
  · cases h : decText .streamOrder (t ++ [x]) with
    | error e => exact ⟨e, rfl⟩
    | ok b =>
      obtain ⟨-, halpha⟩ := decGroups_eq_ok.1 ⟨b, decGroups_of_decText h⟩
      have hmem := halpha x (by simp)
      rw [inAlphabet, hx] at hmem
      cases hmem

/-- A full group discards nothing, so its text is the encoding of its bytes. -/
theorem encBytes_eq_of_length_mod_zero {t b : List Byte} (h : decGroups t = .ok b) (hn : t.length % 4 = 0) :
    encBytes b = t := by
  rcases decGroups_ok_cases h with ⟨rfl, hb⟩ | ⟨p, v, rfl, hb⟩
  · exact hb
  · rw [List.length_append, List.length_singleton] at hn
    simp [hb, clearDiscarded, hn]

/-- The vectors with a given high part: one for each low part. -/
theorem ncard_high_eq {k l : Nat} (x : BitVec k) : {w : BitVec (k + l) | w.extractLsb' l k = x}.ncard = 2 ^ l := by
  have hrange : Set.range (fun low : BitVec l => x ++ low) = {w : BitVec (k + l) | w.extractLsb' l k = x} := by
    ext w
    constructor
    · rintro ⟨low, rfl⟩
      exact BitVec.extractLsb'_append_eq_left
    · rintro rfl
      exact ⟨w.extractLsb' 0 l, BitVec.extractLsb'_append_extractLsb'⟩
  have hinj : Function.Injective fun low : BitVec l => x ++ low :=
    Function.LeftInverse.injective fun low => BitVec.extractLsb'_append_eq_right (a := x)
  rw [← hrange, ← Nat.card_coe_set_eq, Nat.card_range_of_injective hinj]
  exact Nat.card_eq_of_equiv_fin BitVec.equivFin.toEquiv

theorem ncard_clear_low_eq {k l : Nat} (v : BitVec (k + l)) :
    {w : BitVec (k + l) | w.extractLsb' l k ++ 0#l = v.extractLsb' l k ++ 0#l}.ncard = 2 ^ l := by
  simp only [append_zero_inj, ncard_high_eq]

/-- The class of a text has as many members as there are symbol values with the kept bits of its last one. -/
theorem ncard_decGroups_eq {p b : List Byte} {v : Sym} (h : decGroups (p ++ [alpha v]) = .ok b) :
    {u : List Byte | decGroups u = .ok b}.ncard =
      {w : Sym | clearDiscarded (p.length + 1) w = clearDiscarded (p.length + 1) v}.ncard := by
  have himage : {u : List Byte | decGroups u = .ok b} = (fun w => p ++ [alpha w]) ''
      {w : Sym | clearDiscarded (p.length + 1) w = clearDiscarded (p.length + 1) v} :=
    Set.ext fun u => decGroups_eq_ok_iff_of_append h
  have hinj : Function.Injective fun w : Sym => p ++ [alpha w] := fun _ _ hw =>
    (append_alpha_inj.1 hw).2
  rw [himage, Set.ncard_image_of_injective _ hinj]

theorem ncard_decGroups_of_mod_two {t b : List Byte} (h : decGroups t = .ok b) (hn : t.length % 4 = 2) :
    {u : List Byte | decGroups u = .ok b}.ncard = 16 := by
  rcases decGroups_ok_cases h with ⟨rfl, -⟩ | ⟨p, v, rfl, -⟩
  · cases hn
  · rw [List.length_append, List.length_singleton] at hn
    simp only [ncard_decGroups_eq h, clearDiscarded, if_pos hn]
    exact ncard_clear_low_eq (k := 2) (l := 4) v

theorem ncard_decGroups_of_mod_three {t b : List Byte} (h : decGroups t = .ok b) (hn : t.length % 4 = 3) :
    {u : List Byte | decGroups u = .ok b}.ncard = 4 := by
  rcases decGroups_ok_cases h with ⟨rfl, -⟩ | ⟨p, v, rfl, -⟩
  · cases hn
  · rw [List.length_append, List.length_singleton] at hn
    have hne : (p.length + 1) % 4 ≠ 2 := by omega
    simp only [ncard_decGroups_eq h, clearDiscarded, if_neg hne, if_pos hn]
    exact ncard_clear_low_eq (k := 4) (l := 2) v

/-- Settles O29: the members of a class have the same encoding of their bytes, which fixes all but the last
character, and the kept bits fix all but as many values of that one as there are discarded bits. -/
theorem decodeClassSizes : Obligations.DecodeClassSizes := by
  unfold Obligations.DecodeClassSizes
  intro t b h
  simp only [decText_streamOrder] at h ⊢
  obtain ⟨hlen, hdrop⟩ := length_dropLast_encBytes_of_decGroups h
  refine ⟨ncard_decGroups_of_mod_two h, ncard_decGroups_of_mod_three h, fun hn => ?_, fun u hu => ?_⟩
  · refine Set.eq_singleton_iff_unique_mem.2 ⟨h, fun u hu => ?_⟩
    obtain ⟨hlen', -⟩ := length_dropLast_encBytes_of_decGroups hu
    rw [← encBytes_eq_of_length_mod_zero h hn]
    exact (encBytes_eq_of_length_mod_zero hu (by omega)).symm
  · obtain ⟨hlen', hdrop'⟩ := length_dropLast_encBytes_of_decGroups hu
    exact ⟨hlen'.symm.trans hlen, hdrop'.symm.trans hdrop⟩

end Sys2Proof.Machine

/-! Records: which texts PARSE accepts and what it answers, and the round trips of FORMAT and PARSE
(42_record.md). -/

namespace Sys2Proof.Machine

/-! ### Work factors (R90 to R92) -/

theorem wfLegal_iff {p : Params} {wf : Byte} :
    wfLegal p wf = true ↔ wf.toNat ≤ 99 ∧ p.wfSupported wf.toNat = true := by
  rw [wfLegal, Bool.and_eq_true, decide_eq_true_iff]

/-- The hardware supports no work factor above 99, whatever the free value is (R91). -/
theorem le_of_wfSupported {w : Nat} (h : Config.wfSupported w = true) : w ≤ 99 := by
  rw [Config.wfSupported, Bool.and_eq_true, decide_eq_true_iff] at h
  exact h.1

/-- `parse_wf` accepts two digits of a supported work factor and nothing else (R92). -/
theorem parseWf_eq_some {p : Params} {d0 d1 wf : Byte} :
    parseWf p d0 d1 = some wf ↔
      (0x30 ≤ d0.toNat ∧ d0.toNat ≤ 0x39) ∧ (0x30 ≤ d1.toNat ∧ d1.toNat ≤ 0x39) ∧
        p.wfSupported (10 * (d0.toNat - 0x30) + (d1.toNat - 0x30)) = true ∧
        BitVec.ofNat 8 (10 * (d0.toNat - 0x30) + (d1.toNat - 0x30)) = wf := by
  simp [parseWf, isDigit, and_assoc]

/-- What `parse_wf` accepted is a number of two digits, and `wf_text` writes the same digits again (R100). -/
theorem wfText_of_parseWf {p : Params} {d0 d1 wf : Byte} (h : parseWf p d0 d1 = some wf) :
    wfText wf = [d0, d1] ∧ wfLegal p wf = true := by
  obtain ⟨h0, h1, hsupported, rfl⟩ := parseWf_eq_some.1 h
  have hw : (BitVec.ofNat 8 (10 * (d0.toNat - 0x30) + (d1.toNat - 0x30))).toNat =
      10 * (d0.toNat - 0x30) + (d1.toNat - 0x30) := by
    rw [BitVec.toNat_ofNat]
    omega
  refine ⟨?_, wfLegal_iff.2 ⟨by omega, by rwa [hw]⟩⟩
  rw [wfText, hw]
  congr 2
  all_goals
    apply BitVec.eq_of_toNat_eq
    rw [BitVec.toNat_ofNat]
    omega

/-- `parse_wf` reads back the digits that `wf_text` wrote (R101). -/
theorem parseWf_wfText {p : Params} {wf : Byte} (h : wfLegal p wf = true) :
    parseWf p (BitVec.ofNat 8 (0x30 + wf.toNat / 10)) (BitVec.ofNat 8 (0x30 + wf.toNat % 10)) = some wf := by
  obtain ⟨hwf, hsupported⟩ := wfLegal_iff.1 h
  have h0 : (BitVec.ofNat 8 (0x30 + wf.toNat / 10)).toNat = 0x30 + wf.toNat / 10 := by
    rw [BitVec.toNat_ofNat]
    omega
  have h1 : (BitVec.ofNat 8 (0x30 + wf.toNat % 10)).toNat = 0x30 + wf.toNat % 10 := by
    rw [BitVec.toNat_ofNat]
    omega
  have hw : 10 * (0x30 + wf.toNat / 10 - 0x30) + (0x30 + wf.toNat % 10 - 0x30) = wf.toNat := by omega
  rw [parseWf_eq_some, h0, h1, hw]
  exact ⟨by omega, by omega, hsupported, by rw [BitVec.ofNat_toNat, BitVec.setWidth_eq]⟩

/-! ### FORMAT as a command (R93) -/

/-- Settles O32: the contract check on the work factor decides between the two effects of FORMAT. -/
theorem formatCommandEffect : Obligations.FormatCommandEffect := by
  unfold Obligations.FormatCommandEffect
  intro s r hr hf hd
  rw [exec_format_eq hf hr hd]
  refine ⟨fun h => if_pos (wfLegal_iff.2 h), fun h => if_neg fun hw => ?_⟩
  obtain ⟨hle, hsupported⟩ := wfLegal_iff.1 hw
  rcases h with hgt | hnot
  · exact absurd hgt (Nat.not_lt.2 hle)
  · cases hsupported.symm.trans hnot

theorem exec_format_recordBytes {s : State} {r : Record} (hf : s.fault = false) (hr : r.Sized)
    (hw : wfLegal Config.params r.wf = true) :
    exec .format { s with din := recordBytes r } = .next (s.withSuccess (formatText r) none) :=
  (exec_format_eq (s := { s with din := recordBytes r }) hf hr rfl).trans (if_pos hw)

/-! ### The steps of PARSE (R94, R98)

One lemma for each way a parse ends; its hypotheses are that the earlier steps passed. -/

section ParseSteps

variable {p : Params} {t : List Byte}

theorem parseText_of_length_ne (hl : t.length ≠ 60) : parseText p t = .error .length := if_pos hl

variable (hl : t.length = 60)
include hl

theorem parseText_of_header_not_mem (hh : slice t 0 4 ∉ acceptedHeaders) : parseText p t = .error .header := by
  rw [parseText, if_neg (not_not.2 hl), if_pos hh]

variable (hh : slice t 0 4 ∈ acceptedHeaders)
include hh

theorem parseText_of_parseWf_none (hw : parseWf p (t.getD 4 0) (t.getD 5 0) = none) :
    parseText p t = .error .workFactor := by
  rw [parseText, if_neg (not_not.2 hl), if_neg (not_not.2 hh), hw]

variable {wf : Byte} (hw : parseWf p (t.getD 4 0) (t.getD 5 0) = some wf)
include hw

theorem parseText_of_sepError {k : ParseError} (hsep : sepError p.sepPolicy t[6]? = some k) :
    parseText p t = .error k := by
  rw [parseText, if_neg (not_not.2 hl), if_neg (not_not.2 hh), hw, hsep]

variable (hsep : sepError p.sepPolicy t[6]? = none)
include hsep

theorem parseText_of_salt_error {e : DecodeError} (hs : decText p.decodeErrOrder (slice t 7 29) = .error e) :
    parseText p t = .error .salt := by
  rw [parseText, if_neg (not_not.2 hl), if_neg (not_not.2 hh), hw, hsep, hs]

variable {salt : List Byte} (hs : decText p.decodeErrOrder (slice t 7 29) = .ok salt)
include hs

theorem parseText_of_digest_error {e : DecodeError} (hd : decText p.decodeErrOrder (slice t 29 60) = .error e) :
    parseText p t = .error .hash := by
  rw [parseText, if_neg (not_not.2 hl), if_neg (not_not.2 hh), hw, hsep, hs, hd]

theorem parseText_of_steps {digest : List Byte} (hd : decText p.decodeErrOrder (slice t 29 60) = .ok digest) :
    parseText p t = .ok ⟨wf, salt, digest⟩ := by
  rw [parseText, if_neg (not_not.2 hl), if_neg (not_not.2 hh), hw, hsep, hs, hd]

end ParseSteps

/-! ### PARSE as a command (R94, R97, R98) -/

/-- Settles O34: the conditions of the statement are the steps of a parse, of which Ignore leaves byte 6 out. -/
theorem parseCommandSucceeds : Obligations.ParseCommandSucceeds := by
  unfold Obligations.ParseCommandSucceeds
  intro s d0 d1 salt digest hf hl hh h4 h5 h0 h1 hsupported hs hd
  have hw : parseWf Config.params (s.din.getD 4 0) (s.din.getD 5 0) =
      some (BitVec.ofNat 8 (10 * (d0.toNat - 0x30) + (d1.toNat - 0x30))) := by
    rw [List.getD_eq_getElem?_getD, List.getD_eq_getElem?_getD, h4, h5]
    exact parseWf_eq_some.2 ⟨h0, h1, hsupported, rfl⟩
  have hr := parseText_of_steps (p := Config.params) hl hh hw rfl hs hd
  obtain ⟨hsalt, hdigest⟩ := sized_of_parseText hr
  exact ⟨hsalt, hdigest, exec_parse_success hf hl hr⟩

/-- The work-factor step passes exactly where bytes 4 and 5 are two digits of a supported work factor (R92). -/
theorem exists_parseWf_iff {p : Params} {t : List Byte} (hl : t.length = 60) :
    (∃ wf, parseWf p (t.getD 4 0) (t.getD 5 0) = some wf) ↔
      ∃ d0 d1 : Byte, t[4]? = some d0 ∧ t[5]? = some d1 ∧
        0x30 ≤ d0.toNat ∧ d0.toNat ≤ 0x39 ∧ 0x30 ≤ d1.toNat ∧ d1.toNat ≤ 0x39 ∧
        p.wfSupported (10 * (d0.toNat - 0x30) + (d1.toNat - 0x30)) = true := by
  simp [parseWf_eq_some, hl, and_assoc]

/-- A decoded field whose length is not 1 modulo 4 fails only for a character outside the alphabet (R97). -/
theorem exists_decText_iff {t : List Byte} (hn : t.length % 4 ≠ 1) :
    (∃ b, decText .streamOrder t = .ok b) ↔ ∀ c ∈ t, inAlphabet c = true := by
  rw [decText_streamOrder, decGroups_eq_ok, and_iff_right hn]

theorem exists_decText_error {o : DecodeErrOrder} {t : List Byte} (h : ¬ ∃ b, decText o t = .ok b) :
    ∃ e, decText o t = .error e := by
  cases hb : decText o t with
  | ok b => exact (h ⟨b, hb⟩).elim
  | error e => exact ⟨e, rfl⟩

/-- Settles O35: the conditions of the statement are those under which each step passes. -/
theorem parseFirstFailureIsReported : Obligations.ParseFirstFailureIsReported := by
  unfold Obligations.ParseFirstFailureIsReported
  intro s n hf hn headerOk wfOk saltOk hashOk
  refine ⟨fun hne => exec_parse_error hf hn (parseText_of_length_ne (hn ▸ hne)), ?_⟩
  rcases ne_or_eq s.din.length 60 with hne | hl
  -- Every other clause is about a text of 60 bytes.
  · simp [← hn, hne]
  have hwf : wfOk ↔ ∃ wf, parseWf Config.params (s.din.getD 4 0) (s.din.getD 5 0) = some wf :=
    (exists_parseWf_iff (p := Config.params) hl).symm
  have hsalt : saltOk ↔ ∃ b, decText .streamOrder (slice s.din 7 29) = .ok b :=
    (exists_decText_iff (by rw [slice_length] <;> omega)).symm
  have hhash : hashOk ↔ ∃ b, decText .streamOrder (slice s.din 29 60) = .ok b :=
    (exists_decText_iff (by rw [slice_length] <;> omega)).symm
  rw [hwf, hsalt, hhash]
  refine ⟨fun _ hh => ?_, fun _ hh hw => ?_, fun _ hh ⟨wf, hw⟩ hs => ?_, fun _ hh ⟨wf, hw⟩ ⟨b, hs⟩ hd => ?_,
    fun _ hh ⟨wf, hw⟩ ⟨b, hs⟩ ⟨d, hd⟩ => ?_⟩
  · exact exec_parse_error hf hn (parseText_of_header_not_mem hl hh)
  · have hnone := Option.eq_none_iff_forall_ne_some.2 (not_exists.1 hw)
    exact exec_parse_error hf hn (parseText_of_parseWf_none hl hh hnone)
  · obtain ⟨e, he⟩ := exists_decText_error hs
    exact exec_parse_error hf hn (parseText_of_salt_error hl hh hw rfl he)
  · obtain ⟨e, he⟩ := exists_decText_error hd
    exact exec_parse_error hf hn (parseText_of_digest_error hl hh hw rfl hs he)
  · exact ⟨_, exec_parse_success hf hn (parseText_of_steps hl hh hw rfl hs hd), rfl⟩

/-! ### Byte 6 (R96) -/

theorem slice_set_of_le {α : Type} {l : List α} {i j k : Nat} (x : α) (h : j ≤ k) :
    slice (l.set k x) i j = slice l i j := by
  rw [slice, slice, List.drop_set]
  split
  · rfl
  · exact List.take_set_of_le (by omega)

theorem slice_set_of_lt {α : Type} {l : List α} {i j k : Nat} (x : α) (h : k < i) :
    slice (l.set k x) i j = slice l i j := by
  rw [slice, slice, List.drop_set_of_lt h]

/-- Under `Ignore` no step reads byte 6. -/
theorem parseText_set_six {p : Params} (hp : p.sepPolicy = .ignore) (t : List Byte) (c : Byte) :
    parseText p (t.set 6 c) = parseText p t := by
  have hsep (x : Option Byte) : sepError p.sepPolicy x = none := by rw [hp]; rfl
  have h4 : (t.set 6 c).getD 4 0 = t.getD 4 0 := by simp [List.getD_eq_getElem?_getD]
  have h5 : (t.set 6 c).getD 5 0 = t.getD 5 0 := by simp [List.getD_eq_getElem?_getD]
  rw [parseText, parseText, List.length_set, slice_set_of_le c (by decide), h4, h5, hsep, hsep,
    slice_set_of_lt c (by decide), slice_set_of_lt c (by decide)]

/-- Where the check of byte 6 passes, a policy takes no part in the outcome. -/
theorem parseText_of_sepError_none {p : Params} {t : List Byte} (h : sepError p.sepPolicy t[6]? = none) :
    parseText p t = parseText { p with sepPolicy := .ignore } t := by
  rw [parseText, parseText, h]
  rfl

theorem sepError_dollar (policy : SepPolicy) : sepError policy (some dollar) = none := by
  cases policy with
  | ignore => rfl
  | reject k => rw [sepError, if_pos rfl]

/-- Settles O36: the check of byte 6 stands after the work-factor step and before the salt. -/
theorem separatorPolicyOnByteSix : Obligations.SeparatorPolicyOnByteSix := by
  unfold Obligations.SeparatorPolicyOnByteSix
  intro p t c hl
  refine ⟨fun hp => parseText_set_six hp t c, fun k hp h6 hh ⟨wf, hw⟩ => ?_, fun k hp hfail => ?_, fun h6 => ?_⟩
  · refine parseText_of_sepError hl hh hw ?_
    rw [hp]
    exact if_neg h6
  · by_cases hh : slice t 0 4 ∈ acceptedHeaders
    · have hw := hfail.resolve_left (not_not.2 hh)
      rw [parseText_of_parseWf_none hl hh hw, parseText_of_parseWf_none hl hh]
      exact hw
    · rw [parseText_of_header_not_mem hl hh, parseText_of_header_not_mem hl hh]
  · exact parseText_of_sepError_none (h6 ▸ sepError_dollar p.sepPolicy)

/-! ### The accepted first four bytes (R95, R99) -/

theorem length_of_mem_acceptedHeaders : ∀ h ∈ acceptedHeaders, h.length = 4 := by decide

/-- The steps after the first four bytes read from byte 4 on, so a text parses like the one that begins with `$2b$`. -/
theorem parseText_append_header {p : Params} {h rest : List Byte} (hh : h ∈ acceptedHeaders) :
    parseText p (h ++ rest) = parseText p (header2b ++ rest) := by
  have hb : header2b ∈ acceptedHeaders := by decide
  have hslice {h : List Byte} (hh : h ∈ acceptedHeaders) : slice (h ++ rest) 0 4 = h :=
    slice_append_append (a := []) rfl (length_of_mem_acceptedHeaders h hh)
  rw [parseText, parseText, hslice hh, hslice hb, if_neg (not_not.2 hh), if_neg (not_not.2 hb)]
  -- The rest of the parse computes on the four known bytes before `rest`.
  fin_cases hh <;> rfl

/-- PARSE depends on the text only through what it parses to. -/
theorem exec_parse_congr {s : State} {n : Nat} {t u : List Byte} (ht : t.length = n) (hu : u.length = n)
    (h : parseText Config.params t = parseText Config.params u) :
    exec (.parse n) { s with din := t } = exec (.parse n) { s with din := u } := by
  rcases Bool.eq_false_or_eq_true s.fault with hf | hf
  · exact (exec_faulted _ (s := { s with din := t }) hf).trans (exec_faulted _ (s := { s with din := u }) hf).symm
  · cases hr : parseText Config.params u with
    | ok r =>
      exact (exec_parse_success (s := { s with din := t }) hf ht (h.trans hr)).trans
        (exec_parse_success (s := { s with din := u }) hf hu hr).symm
    | error k =>
      exact (exec_parse_error (s := { s with din := t }) hf ht (h.trans hr)).trans
        (exec_parse_error (s := { s with din := u }) hf hu hr).symm

/-- Settles O37: both texts parse like the one with the first four bytes that FORMAT writes. -/
theorem acceptedHeadersAreEquivalent : Obligations.AcceptedHeadersAreEquivalent := by
  unfold Obligations.AcceptedHeadersAreEquivalent
  intro s h h' rest hrest hh hh'
  have hl {h : List Byte} (hh : h ∈ acceptedHeaders) : (h ++ rest).length = 60 := by
    rw [List.length_append, length_of_mem_acceptedHeaders h hh, hrest]
  refine exec_parse_congr (hl hh) (hl hh') ?_
  rw [parseText_append_header hh, parseText_append_header hh']

/-! ### The fields of a text (R63) -/

theorem slice_append_slice {α : Type} {l : List α} {i j k : Nat} (hij : i ≤ j) (hjk : j ≤ k) :
    slice l i j ++ slice l j k = slice l i k := by
  have hk : k - i = (j - i) + (k - j) := by omega
  rw [slice, slice, slice, hk, List.take_add, List.drop_drop, Nat.add_sub_cancel' hij]

theorem slice_succ {α : Type} {l : List α} {i : Nat} {x : α} (h : l[i]? = some x) : slice l i (i + 1) = [x] := by
  obtain ⟨hi, rfl⟩ := List.getElem?_eq_some_iff.1 h
  rw [slice, List.drop_eq_getElem_cons hi, Nat.add_sub_cancel_left, List.take_one]
  rfl

/-- A text of 60 bytes is its five fields one after the other. -/
theorem append_fields_eq {t : List Byte} (hl : t.length = 60) :
    slice t 0 4 ++ slice t 4 6 ++ slice t 6 7 ++ slice t 7 29 ++ slice t 29 60 = t := by
  simp only [slice_append_slice, Nat.reduceLeDiff]
  rw [slice, List.drop_zero, ← hl, Nat.sub_zero, List.take_length]

/-! ### FORMAT of a parsed record (R100) -/

/-- The digits of a text that parses are those that FORMAT writes for its work factor (R100). -/
theorem wfText_of_parseText {p : Params} {t : List Byte} {r : Record} (h : parseText p t = .ok r) :
    wfText r.wf = slice t 4 6 ∧ wfLegal p r.wf = true := by
  obtain ⟨hl, -, hw, -⟩ := steps_of_parseText h
  obtain ⟨htext, hlegal⟩ := wfText_of_parseWf hw
  have hget {i : Nat} (hi : i < 60) : t[i]? = some (t.getD i 0) := by
    rw [List.getD_eq_getElem _ _ (hl ▸ hi), List.getElem?_eq_getElem]
  refine ⟨?_, hlegal⟩
  rw [htext, ← slice_append_slice (j := 5) (by decide) (by decide), slice_succ (hget (by decide)),
    slice_succ (hget (by decide))]
  rfl

theorem decText_streamOrder_of_decText {o : DecodeErrOrder} {t b : List Byte} (h : decText o t = .ok b) :
    decText .streamOrder t = .ok b :=
  (decText_streamOrder t).trans (decGroups_of_decText h)

theorem formatText_eq_iff {p : Params} {t : List Byte} {r : Record} (h : parseText p t = .ok r) :
    formatText r = t ↔
      slice t 0 4 = header2b ∧ t[6]? = some dollar ∧ CanonicalText (slice t 7 29) ∧
        CanonicalText (slice t 29 60) := by
  obtain ⟨hl, -, -, -, hs, hd⟩ := steps_of_parseText h
  obtain ⟨hwf, hlegal⟩ := wfText_of_parseText h
  rw [canonicalText_iff (decText_streamOrder_of_decText hs), canonicalText_iff (decText_streamOrder_of_decText hd)]
  constructor
  · intro heq
    obtain ⟨-, hheader, -, -, h6, hsalt, hdigest, -⟩ :=
      formattedTextLayout r (sized_of_parseText h) (wfLegal_iff.1 hlegal).1
    rw [heq] at hheader h6 hsalt hdigest
    exact ⟨hheader, h6, hsalt.symm, hdigest.symm⟩
  · rintro ⟨hheader, h6, hsalt, hdigest⟩
    rw [formatText, hwf, hsalt, hdigest, ← hheader, ← slice_succ h6]
    exact append_fields_eq hl

/-- Settles O38: a text is its five fields, so FORMAT gives it back where it writes each of them again. -/
theorem formatOfParsedRecord : Obligations.FormatOfParsedRecord := by
  unfold Obligations.FormatOfParsedRecord
  refine ⟨fun p t r _ h => ?_, fun s t h hsucc => ?_⟩
  · obtain ⟨hwf, hlegal⟩ := wfText_of_parseText h
    refine ⟨formatText_eq_iff h, ?_, sized_of_parseText h, wfLegal_iff.1 hlegal⟩
    rw [formatText, hwf]
    rfl
  · have hstatus : t.status = some statusOk := by rw [State.status, hsucc]
    obtain ⟨hf, hl⟩ := taken_of_status h hstatus
    cases hr : parseText Config.params s.din with
    | error k =>
      cases h.symm.trans (exec_parse_error hf hl hr)
      cases hsucc
    | ok r =>
      cases h.symm.trans (exec_parse_success hf hl hr)
      exact ⟨r, rfl, rfl, exec_format_recordBytes (s := s.withSuccess (recordBytes r) none) hf
        (sized_of_parseText hr) (wfText_of_parseText hr).2⟩

/-! ### PARSE of a formatted record (R101, R102) -/

theorem parseText_formatText {p : Params} {r : Record} (hr : r.Sized) (hw : wfLegal p r.wf = true) :
    parseText p (formatText r) = .ok r := by
  obtain ⟨hl, hheader, h4, h5, h6, hsalt, hdigest, -⟩ := formattedTextLayout r hr (wfLegal_iff.1 hw).1
  refine parseText_of_steps hl ?_ ?_ ?_ ?_ ?_
  · rw [hheader]
    decide
  · rw [List.getD_eq_getElem?_getD, List.getD_eq_getElem?_getD, h4, h5]
    exact parseWf_wfText hw
  · exact h6 ▸ sepError_dollar p.sepPolicy
  · rw [hsalt, decText_encBytes]
  · rw [hdigest, decText_encBytes]

theorem exec_parse_formatText {s : State} {r : Record} (hf : s.fault = false) (hr : r.Sized)
    (hw : wfLegal Config.params r.wf = true) :
    exec (.parse 60) { s with din := formatText r } = .next (s.withSuccess (recordBytes r) none) :=
  exec_parse_success (s := { s with din := formatText r }) hf (formatText_length hr) (parseText_formatText hr hw)

/-- Settles O39: FORMAT writes each field at the offset where PARSE reads it, and every field reads back. -/
theorem parseOfFormattedRecord : Obligations.ParseOfFormattedRecord := by
  unfold Obligations.ParseOfFormattedRecord
  refine ⟨fun p r _ hr hwf hsupported => parseText_formatText hr (wfLegal_iff.2 ⟨hwf, hsupported⟩),
    fun s r hf hr hsupported => ?_⟩
  have hw : wfLegal Config.params r.wf = true := wfLegal_iff.2 ⟨le_of_wfSupported hsupported, hsupported⟩
  exact ⟨_, formatText r, exec_format_recordBytes hf hr hw, rfl, formatText_length hr,
    exec_parse_formatText (s := s.withSuccess (formatText r) none) hf hr hw⟩

/-- The record of the known vector, V-R1 (R102). -/
def vectorRecord : Record := ⟨4, slice knownRecord 1 17, slice knownRecord 17 40⟩

theorem recordBytes_vectorRecord : recordBytes vectorRecord = knownRecord := rfl

theorem formatText_vectorRecord : formatText vectorRecord = knownText := by decide

/-- Settles O40: the known text is the text of the known record, and PARSE undoes FORMAT. -/
theorem knownVectorRoundTrips : Obligations.KnownVectorRoundTrips := by
  unfold Obligations.KnownVectorRoundTrips
  intro s hf
  have hr : vectorRecord.Sized := by decide
  have hw : wfLegal Config.params vectorRecord.wf = true := by decide
  rw [← formatText_vectorRecord, ← recordBytes_vectorRecord]
  exact ⟨exec_parse_formatText hf hr hw, rfl, exec_format_recordBytes hf hr hw⟩

end Sys2Proof.Machine

/-! How an issued command is answered: refused, faulted, or taken with Success or Error (60_exceptions.md). -/

namespace Sys2Proof.Machine

/-! ### Refusal and Error (R105, R111) -/

theorem step_issue_faulted {s : State} {x : Transaction} {rest : List HostAction} (hs : s.host = .issue x :: rest)
    (hf : s.fault = true) : step s = .next (s.popHost rest).withRefused :=
  (step_action hs).trans (issueCommand_faulted (s := s.popHost rest) hf)

/-- Settles O8. -/
theorem faultedBlockRefusesCommand : Obligations.FaultedBlockRefusesCommand := by
  unfold Obligations.FaultedBlockRefusesCommand
  exact ⟨fun s t rest hs hf => step_issue_faulted hs hf, fun i s hf => exec_faulted i hf⟩

/-- A command that ends in Error was taken with FAULT = 0 (R111), and changes no register (R105). -/
theorem faultRegisters_of_step_error {s t : State} {x : Transaction} {rest : List HostAction} {k : ErrorKind}
    (hs : s.host = .issue x :: rest) (h : step s = .next t) (hk : t.answer = .error k) :
    s.fault = false ∧ t.fault = s.fault ∧ t.fcause = s.fcause := by
  cases hf : s.fault with
  | true =>
    rw [step_issue_faulted hs hf] at h
    cases h
    cases hk
  | false =>
    rcases step_faultRegisters h with ⟨p, rest', hreset, -⟩ | ⟨hfault, hfcause⟩ | ⟨c, x', rest', -, -, rfl⟩
    · cases hs.symm.trans hreset
    · exact ⟨rfl, hfault.trans hf, hfcause⟩
    · cases hk

/-- Settles O42: the Error leaves FAULT = 0, so the next command passes the first check of R113. -/
theorem errorKeepsRegisters : Obligations.ErrorKeepsRegisters := by
  unfold Obligations.ErrorKeepsRegisters
  intro s t x rest k hs h hk
  obtain ⟨hf, hfault, hfcause⟩ := faultRegisters_of_step_error hs h hk
  have ht : t.fault = false := hfault.trans hf
  refine ⟨⟨hfault, hfcause, ht⟩, fun w din rest' hnext => ⟨fun i hd => step_issue_legal hnext ht hd, fun e hd => ?_⟩⟩
  exact ⟨_, step_issue_illegal hnext ht hd, rfl, rfl, rfl⟩

/-! ### The contract check of each command (R109) -/

theorem contractCause_enc6 (x : Byte) :
    contractCause .enc6 [x] = if 64 ≤ x.toNat then some .operandRange else none := by
  simp [contractCause]

theorem contractCause_encode (n m : Nat) (din : List Byte) :
    contractCause (.encode n m) din = if m = encLen n then none else some .bufferSize := rfl

theorem contractCause_decode (n m : Nat) (din : List Byte) :
    contractCause (.decode n m) din = if m = decLen n then none else some .bufferSize := rfl

/-- FORMAT checks the first byte of its record, the work factor (R93). -/
theorem contractCause_format (r : Record) :
    contractCause .format (recordBytes r) = if wfLegal Config.params r.wf then none else some .operandRange := by
  have hfails : (99 < r.wf.toNat ∨ Config.wfSupported r.wf.toNat = false) ↔ ¬ wfLegal Config.params r.wf = true := by
    rw [wfLegal_iff, not_and_or, not_le, Bool.not_eq_true]
    rfl
  simp only [contractCause, recordBytes, List.head?_cons, Option.mem_some_iff, exists_eq_left', hfails, ite_not]

/-- The answers that R113 leaves to a command once its contract check gave `c`: the Fault with that cause where the
check failed, and otherwise Success or Error. -/
def Answer.FollowsCheck : Option Cause → Answer → Prop
  | some c, a => a = .fault c
  | none, a => a = .success ∨ ∃ k, a = .error k

/-- A command taken with `L_in(cmd)` bytes is answered as its contract check says, command by command. -/
theorem exec_followsCheck {i : Instr} {s : State} (hf : s.fault = false) (hl : s.din.length = lIn i) :
    ∃ t, exec i s = .next t ∧ t.answer.FollowsCheck (contractCause i s.din) := by
  cases i with
  | enc6 =>
    obtain ⟨x, hd⟩ := List.length_eq_one_iff.1 hl
    rw [hd, contractCause_enc6]
    split
    · next hx => exact ⟨_, exec_enc6_fault hf hd hx, rfl⟩
    · next hx => exact ⟨_, exec_enc6_success hf hd (not_le.1 hx), .inl rfl⟩
  | dec8 =>
    obtain ⟨c, hd⟩ := List.length_eq_one_iff.1 hl
    cases hc : rev c with
    | some v => exact ⟨_, exec_dec8_success hf hd hc, .inl rfl⟩
    | none => exact ⟨_, exec_dec8_error hf hd hc, .inr ⟨_, rfl⟩⟩
  | encode n m =>
    rw [contractCause_encode]
    split
    · next hm => exact ⟨_, exec_encode_success hf hl hm, .inl rfl⟩
    · next hm => exact ⟨_, exec_encode_fault hf hl hm, rfl⟩
  | decode n m =>
    rw [contractCause_decode]
    split
    · next hm =>
      cases hb : decText .streamOrder s.din with
      | ok b => exact ⟨_, exec_decode_success hf hl hm hb, .inl rfl⟩
      | error e => exact ⟨_, exec_decode_error hf hl hm hb, .inr ⟨_, rfl⟩⟩
    · next hm => exact ⟨_, exec_decode_fault hf hl hm, rfl⟩
  | format =>
    obtain ⟨r, hr, hd⟩ := exists_record_of_length hl
    rw [exec_format_eq hf hr hd, hd, contractCause_format]
    split
    · exact ⟨_, rfl, .inl rfl⟩
    · exact ⟨_, rfl, rfl⟩
  | parse n =>
    cases hr : parseText Config.params s.din with
    | ok r => exact ⟨_, exec_parse_success hf hl hr, .inl rfl⟩
    | error k => exact ⟨_, exec_parse_error hf hl hr, .inr ⟨_, rfl⟩⟩

/-! ### The order of the checks (R113) -/

theorem step_issue_followsCheck {s : State} {x : Transaction} {rest : List HostAction} {i : Instr}
    (hs : s.host = .issue x :: rest) (hf : s.fault = false) (hd : decodeCmd x.cmd = .ok i)
    (hl : x.din.length = lIn i) : ∃ t, step s = .next t ∧ t.answer.FollowsCheck (contractCause i x.din) := by
  rw [step_issue_legal hs hf hd]
  exact exec_followsCheck (s := (s.popHost rest).present x.din) hf hl

/-- Settles O46: each check is a case of the step, in the order of R113, and the contract check decides the last two
clauses (`step_issue_followsCheck`). -/
theorem checksInOrder : Obligations.ChecksInOrder := by
  unfold Obligations.ChecksInOrder
  intro s w din rest hs
  refine ⟨fun hf => ⟨_, step_issue_faulted hs hf, rfl⟩, fun e hf hd => ⟨_, step_issue_illegal hs hf hd, rfl⟩,
    fun i c hf hd hl hc => ?_, fun i hf hd hl hc => ?_⟩
  · have h := step_issue_followsCheck hs hf hd hl
    rwa [hc] at h
  · have h := step_issue_followsCheck hs hf hd hl
    rwa [hc] at h

end Sys2Proof.Machine

/-! Reset, and what the host can read before the first transaction after it completes
(70_reset_and_hazards.md). -/

namespace Sys2Proof.Machine

theorem step_reset {s : State} {p : Option Transaction} {rest : List HostAction} (hs : s.host = .reset p :: rest) :
    step s = .next (resetBlock (s.popHost rest)) :=
  step_action hs

/-- Settles O9: the whole reset state, by the step of a reset. -/
theorem resetStepClearsBlock : Obligations.ResetStepClearsBlock := by
  unfold Obligations.ResetStepClearsBlock
  exact fun s p rest hs => step_reset hs

/-- Before the first outcome DOUT has no byte and `valid` no value (R36, R128). -/
theorem State.Inv.outputs_of_noneYet {s : State} (hi : s.Inv) (ha : s.answer = .noneYet) :
    s.doutLen = 0 ∧ s.valid = none := by
  have ho := hi.outputs
  rw [State.OutputsMatchAnswer, ha] at ho
  exact ho.2

/-- Only a transaction returns an outcome: after any other step the last one stands, or a reset has taken it away
(R26, R128). -/
theorem answer_of_step_of_not_issue {s t : State} (h : step s = .next t)
    (hn : ∀ x rest, s.host ≠ .issue x :: rest) : t.answer = s.answer ∨ t.answer = .noneYet := by
  rcases step_cases h with ⟨-, rfl⟩ | ⟨p, rest, -, rfl⟩ | ⟨p, r, rest, -, -, rfl⟩ | ⟨x, rest, hs, -⟩ |
    ⟨x, e, rest, hs, -⟩ | ⟨x, i, rest, hs, -⟩
  · exact .inl rfl
  · exact .inr rfl
  · exact .inl rfl
  · exact absurd hs (hn x rest)
  · exact absurd hs (hn x rest)
  · exact absurd hs (hn x rest)

/-- Settles O10: by the invariant no output holds a value before the first outcome, and only a transaction returns
one (`answer_of_step_of_not_issue`). -/
theorem outputsPoisonBeforeFirstOutcome : Obligations.OutputsPoisonBeforeFirstOutcome := by
  unfold Obligations.OutputsPoisonBeforeFirstOutcome
  refine ⟨rfl, fun s hi ha => ?_⟩
  obtain ⟨hlen, hvalid⟩ := hi.outputs_of_noneYet ha
  have hstatus : s.status = none := by rw [State.status, ha]
  have hpast : ∀ j, s.doutLen ≤ j := fun j => hlen.trans_le j.zero_le
  refine ⟨⟨hostRead_status_none hstatus, hostRead_valid_none hvalid, fun j => ⟨_, hostRead_dout_past (hpast j)⟩⟩,
    fun t h hn => ?_⟩
  rcases answer_of_step_of_not_issue h hn with hkept | hreset
  · exact hkept.trans ha
  · exact hreset

end Sys2Proof.Machine
